-- ==== Sys2Proof/Word.lean ====
section
/-! DEFINITION. The machine's words and their plainest arithmetic. -/

namespace Sys2Proof

/-- One addressable unit of memory, 8 bits (10_state.md R18). -/
abbrev Byte := BitVec 8

/-- A general register, an address while it is computed, one element of data (10_state.md R10). -/
abbrev Word := BitVec 64

/-- A vector register, 512 bits (10_state.md R13). -/
abbrev Zmm := BitVec 512

/-- One bit of a word as a Bool; bit 0 is the least significant (00_scope.md R6). -/
def bitAt {n : Nat} (w : BitVec n) (i : Nat) : Bool := w.getLsbD i

/-- `trunc_32` followed by zero extension to 64 bits (00_scope.md R7). -/
def low32 (w : Word) : Word := (w.setWidth 32).setWidth 64

end Sys2Proof
end

