-- ==== Sys2Proof/Config.lean ====
section
/-! DEFINITION. What an implementation fixes (00_scope.md R5), and the one free choice the source
leaves to it (40_scatter.md R102). The parameters of R5 that a launch state defines
(70_reset_and_hazards.md R181: mode, features, enables, segment bases, StoreCheck) are fields of State. -/

namespace Sys2Proof

/-- `MAX_KL`, the width of an opmask register (00_scope.md R5, decision D2). DESIGN CHOICE: log 4. -/
abbrev Config.maxKL : Nat := 64

/-- `LA_BITS`, the significant bits of a linear address in M64 (00_scope.md R5, decision D21).
DESIGN CHOICE: log 5. -/
abbrev Config.laBits : Nat := 48

/-- The longest instruction in bytes (30_encoding.md R80). -/
abbrev Config.maxInstrBytes : Nat := 15

/-- `LeftSubset(st, f)`: is element `j` above the faulting element `f` completed before the fault is
delivered? A free value (40_scatter.md R102, decision D8; log 6): it has no body, so nothing can be
proved of its answers, and it is a function of the whole state `st`, so the same state always gives the
same set. `σ` is the machine's state type, declared after this file. -/
opaque Config.leftSubset (σ : Type) (st : σ) (f j : Nat) : Bool

end Sys2Proof
end

