-- ==== Sys2Proof/Syntax.lean ====
section
/-! DEFINITION. The twelve encoded forms as syntax: one constructor of Instr per row of
spec/opcode_table.json (30_encoding.md R81), all over one record of operands. -/

namespace Sys2Proof

/-- `MODE` (00_scope.md R5): 64-bit mode, or a 32-bit protected or compatibility mode. -/
inductive Mode
  | m64
  | m32
deriving DecidableEq, Repr

/-- The six segments a memory operand can name (30_encoding.md R56, R76). -/
inductive Segment
  | es | cs | ss | ds | fs | gs
deriving DecidableEq, Repr

/-- A legacy prefix that leaves an instruction of the family legal (30_encoding.md R56): a segment
override, or `67`. The prefixes that make it illegal never reach the syntax. -/
inductive LegacyPrefix
  | override (seg : Segment)
  | addressSize
deriving DecidableEq, Repr

/-- `SCALE`, the factor of each index (30_encoding.md R78). -/
inductive Scale
  | x1 | x2 | x4 | x8
deriving DecidableEq, Repr

/-- The displacement as it is encoded (30_encoding.md R65): `disp8` is not yet multiplied by N. -/
inductive Disp
  | none
  | disp8 (d : BitVec 8)
  | disp32 (d : BitVec 32)
deriving DecidableEq, Repr

/-- The base register of the memory operand, which "may not exist" (30_encoding.md R65, R72). When it
is absent the encoding still carries a bit B, which the instruction ignores: kept so that an encoding
is not lost in the syntax (log 30). -/
inductive Base
  | reg (r : BitVec 4)
  | absent (storedB : Bool)
deriving DecidableEq, Repr

/-- The operands that every form has (30_encoding.md R71 to R78). -/
structure Operands where
  /-- The legacy prefixes before the byte `62`, in order. -/
  legacy : List LegacyPrefix
  /-- `s`: the source vector register (R71). -/
  src : BitVec 5
  /-- `idx`: the index vector register (R73). -/
  idx : BitVec 5
  /-- `m`: the opmask register (R74). The value 0 names k0 and is `#UD` when executed (R82). -/
  mask : BitVec 3
  base : Base
  scale : Scale
  disp : Disp
deriving DecidableEq, Repr

/-- The width of an index element (40_scatter.md R104, `IW`). -/
inductive IndexWidth
  | dword
  | qword
deriving DecidableEq, Repr

/-- The width of a data element (40_scatter.md R104, `DW`), selected by `EVEX.W`. -/
inductive DataWidth
  | single
  | double
deriving DecidableEq, Repr

/-- `VL`, the vector length (40_scatter.md R104). -/
inductive VecLen
  | v128
  | v256
  | v512
deriving DecidableEq, Repr

/-- What distinguishes the twelve forms (40_scatter.md R104). -/
structure Form where
  iw : IndexWidth
  dw : DataWidth
  vl : VecLen
deriving DecidableEq, Repr

/-- The instructions: rows 1 to 12 of 30_encoding.md R81. -/
inductive Instr
  /-- Row 1, `VSCATTERDPS vm32x {k1}, xmm1` (40_scatter.md R118). -/
  | vscatterdps128 (o : Operands)
  /-- Row 2, `VSCATTERDPS vm32y {k1}, ymm1` (R119). -/
  | vscatterdps256 (o : Operands)
  /-- Row 3, `VSCATTERDPS vm32z {k1}, zmm1` (R120). -/
  | vscatterdps512 (o : Operands)
  /-- Row 4, `VSCATTERDPD vm32x {k1}, xmm1` (R121). -/
  | vscatterdpd128 (o : Operands)
  /-- Row 5, `VSCATTERDPD vm32x {k1}, ymm1` (R122). -/
  | vscatterdpd256 (o : Operands)
  /-- Row 6, `VSCATTERDPD vm32y {k1}, zmm1` (R123). -/
  | vscatterdpd512 (o : Operands)
  /-- Row 7, `VSCATTERQPS vm64x {k1}, xmm1` (R124). -/
  | vscatterqps128 (o : Operands)
  /-- Row 8, `VSCATTERQPS vm64y {k1}, xmm1` (R125). -/
  | vscatterqps256 (o : Operands)
  /-- Row 9, `VSCATTERQPS vm64z {k1}, ymm1` (R126). -/
  | vscatterqps512 (o : Operands)
  /-- Row 10, `VSCATTERQPD vm64x {k1}, xmm1` (R127). -/
  | vscatterqpd128 (o : Operands)
  /-- Row 11, `VSCATTERQPD vm64y {k1}, ymm1` (R128). -/
  | vscatterqpd256 (o : Operands)
  /-- Row 12, `VSCATTERQPD vm64z {k1}, zmm1` (R129). -/
  | vscatterqpd512 (o : Operands)
deriving DecidableEq, Repr

/-- The form of an instruction (30_encoding.md R81). -/
def Instr.form : Instr → Form
  | .vscatterdps128 _ => ⟨.dword, .single, .v128⟩
  | .vscatterdps256 _ => ⟨.dword, .single, .v256⟩
  | .vscatterdps512 _ => ⟨.dword, .single, .v512⟩
  | .vscatterdpd128 _ => ⟨.dword, .double, .v128⟩
  | .vscatterdpd256 _ => ⟨.dword, .double, .v256⟩
  | .vscatterdpd512 _ => ⟨.dword, .double, .v512⟩
  | .vscatterqps128 _ => ⟨.qword, .single, .v128⟩
  | .vscatterqps256 _ => ⟨.qword, .single, .v256⟩
  | .vscatterqps512 _ => ⟨.qword, .single, .v512⟩
  | .vscatterqpd128 _ => ⟨.qword, .double, .v128⟩
  | .vscatterqpd256 _ => ⟨.qword, .double, .v256⟩
  | .vscatterqpd512 _ => ⟨.qword, .double, .v512⟩

/-- The operands of an instruction. -/
def Instr.operands : Instr → Operands
  | .vscatterdps128 o | .vscatterdps256 o | .vscatterdps512 o
  | .vscatterdpd128 o | .vscatterdpd256 o | .vscatterdpd512 o
  | .vscatterqps128 o | .vscatterqps256 o | .vscatterqps512 o
  | .vscatterqpd128 o | .vscatterqpd256 o | .vscatterqpd512 o => o

/-- The instruction of a form: the row of 30_encoding.md R81 that it selects. -/
def Form.instr : Form → Operands → Instr
  | ⟨.dword, .single, .v128⟩ => .vscatterdps128
  | ⟨.dword, .single, .v256⟩ => .vscatterdps256
  | ⟨.dword, .single, .v512⟩ => .vscatterdps512
  | ⟨.dword, .double, .v128⟩ => .vscatterdpd128
  | ⟨.dword, .double, .v256⟩ => .vscatterdpd256
  | ⟨.dword, .double, .v512⟩ => .vscatterdpd512
  | ⟨.qword, .single, .v128⟩ => .vscatterqps128
  | ⟨.qword, .single, .v256⟩ => .vscatterqps256
  | ⟨.qword, .single, .v512⟩ => .vscatterqps512
  | ⟨.qword, .double, .v128⟩ => .vscatterqpd128
  | ⟨.qword, .double, .v256⟩ => .vscatterqpd256
  | ⟨.qword, .double, .v512⟩ => .vscatterqpd512

end Sys2Proof
end

