-- ==== Sys2Proof/WellFormed.lean ====
section
/-! DEFINITION. Which terms of the syntax are instructions: what the encoding can express
(30_encoding.md R65, R80), and that the writemask is one of k1 to k7 (R82). -/

namespace Sys2Proof

/-- The bytes a displacement takes (30_encoding.md R65). -/
def Disp.bytes : Disp → Nat
  | .none => 0
  | .disp8 _ => 1
  | .disp32 _ => 4

/-- Base and displacement fit one another (30_encoding.md R65): without a base there is a 4-byte
displacement, and `base = 101b` (register 5 or 13) cannot stand without a displacement. -/
def Operands.baseDispFit (o : Operands) : Bool :=
  match o.base, o.disp with
  | .absent _, .disp32 _ => true
  | .absent _, _ => false
  | .reg r, .none => r.extractLsb' 0 3 != 5#3
  | .reg _, _ => true

/-- The instruction is at most 15 bytes long (30_encoding.md R80). -/
def Operands.lengthFits (o : Operands) : Bool :=
  decide (o.legacy.length + 7 + o.disp.bytes ≤ Config.maxInstrBytes)

/-- The encoding can express these operands. -/
def Operands.encodable (o : Operands) : Bool := o.baseDispFit && o.lengthFits

/-- The writemask is one of k1 to k7 (30_encoding.md R82; 10_state.md R16). -/
def Operands.maskNamed (o : Operands) : Bool := o.mask != 0#3

/-- A valid instruction of its form (30_encoding.md R91). -/
def Instr.wellFormed (i : Instr) : Bool := i.operands.encodable && i.operands.maskNamed

end Sys2Proof
end

