-- ==== Sys2Proof/Decode.lean ====
section
/-! DEFINITION. The decoder of 30_encoding.md R95, total on any bytes, and the encoder written from the
same tables (R57 to R65, R71 to R74, R81). Every bit position is the spec's, which marks it as general
knowledge (log 31). -/

namespace Sys2Proof

/-- What the decoder answers. -/
inductive Decoded
  /-- An instruction of the family and the bytes after it. -/
  | ok (i : Instr) (rest : List Byte)
  /-- Bytes of the family that are no valid instruction: `#UD` (30_encoding.md R83, R85, R86). -/
  | invalidOpcode
  /-- Bytes that are not an instruction of the family (R87 BOUND, R90): no meaning here. -/
  | notInFamily
  /-- The bytes end before the instruction does. `shown`: they already have `62`, `mm`, `pp` and the opcode
  of the family (30_encoding.md R90). -/
  | needMore (shown : Bool)
deriving DecidableEq, Repr

/-- What a byte before the EVEX prefix is (30_encoding.md R56). -/
inductive PrefixClass
  | legacy (p : LegacyPrefix)
  | forbidden
  | other
deriving DecidableEq, Repr

/-- 30_encoding.md R56, R86: `F0`, `66`, `F2`, `F3`, and in M64 a REX byte, make the instruction
illegal. -/
def classifyByte (m : Mode) (b : Byte) : PrefixClass :=
  if b = 0x26#8 then .legacy (.override .es)
  else if b = 0x2E#8 then .legacy (.override .cs)
  else if b = 0x36#8 then .legacy (.override .ss)
  else if b = 0x3E#8 then .legacy (.override .ds)
  else if b = 0x64#8 then .legacy (.override .fs)
  else if b = 0x65#8 then .legacy (.override .gs)
  else if b = 0x67#8 then .legacy .addressSize
  else if b = 0xF0#8 ∨ b = 0x66#8 ∨ b = 0xF2#8 ∨ b = 0xF3#8 then .forbidden
  else if m = .m64 ∧ b.extractLsb' 4 4 = 4#4 then .forbidden
  else .other

/-- The byte of a legacy prefix (30_encoding.md R56). -/
def legacyByte : LegacyPrefix → Byte
  | .override .es => 0x26#8
  | .override .cs => 0x2E#8
  | .override .ss => 0x36#8
  | .override .ds => 0x3E#8
  | .override .fs => 0x64#8
  | .override .gs => 0x65#8
  | .addressSize => 0x67#8

/-- `mm = 10b`, `pp = 01b` and opcode `A2` or `A3` (30_encoding.md R90). -/
def inFamily (p0 p1 op : Byte) : Bool :=
  p0.extractLsb' 0 2 == 2#2 && p1.extractLsb' 0 2 == 1#2 && (op == 0xA2#8 || op == 0xA3#8)

/-- The reserved field values and the ModRM values that are `#UD` (30_encoding.md R83, R85): `P0` bits
3:2, `P1` bit 2, `vvvv`, `z`, `b`, `L'L`, `mod`, `rm`. -/
def reservedField (p0 p1 p2 modrm : Byte) : Bool :=
  p0.extractLsb' 2 2 != 0#2 || p1.extractLsb' 2 1 != 1#1 || p1.extractLsb' 3 4 != 15#4 ||
  p2.extractLsb' 7 1 != 0#1 || p2.extractLsb' 4 1 != 0#1 || p2.extractLsb' 5 2 == 3#2 ||
  modrm.extractLsb' 6 2 == 3#2 || modrm.extractLsb' 0 3 != 4#3

/-- `L'L` (30_encoding.md R60); `11b` is rejected before. -/
def vecLenOf (ll : BitVec 2) : VecLen :=
  if ll = 0#2 then .v128 else if ll = 1#2 then .v256 else .v512

/-- The form selected by opcode, `W` and `L'L` (30_encoding.md R62, R81). -/
def formOf (op p1 p2 : Byte) : Form :=
  { iw := if op = 0xA2#8 then .dword else .qword
    dw := if p1.extractLsb' 7 1 = 0#1 then .single else .double
    vl := vecLenOf (p2.extractLsb' 5 2) }

/-- `SCALE = 1 << ss` (30_encoding.md R64). -/
def scaleOf (ss : BitVec 2) : Scale :=
  if ss = 0#2 then .x1 else if ss = 1#2 then .x2 else if ss = 2#2 then .x4 else .x8

/-- The operands of an encoding, its base and displacement already read (30_encoding.md R71, R73, R74,
R64). -/
def operandsOf (legacy : List LegacyPrefix) (p0 p2 modrm vsib : Byte) (base : Base) (disp : Disp) :
    Operands :=
  { legacy := legacy
    src := (~~~(p0.extractLsb' 4 1)) ++ (~~~(p0.extractLsb' 7 1)) ++ modrm.extractLsb' 3 3
    idx := (~~~(p2.extractLsb' 3 1)) ++ (~~~(p0.extractLsb' 6 1)) ++ vsib.extractLsb' 3 3
    mask := p2.extractLsb' 0 3
    base := base
    scale := scaleOf (vsib.extractLsb' 6 2)
    disp := disp }

/-- The base register's number (30_encoding.md R72). -/
def baseRegOf (p0 vsib : Byte) : BitVec 4 := (~~~(p0.extractLsb' 5 1)) ++ vsib.extractLsb' 0 3

/-- A 4-byte displacement, lowest byte first (30_encoding.md R65). -/
def disp32Of (b0 b1 b2 b3 : Byte) : BitVec 32 := b3 ++ b2 ++ b1 ++ b0

/-- Base and displacement by `mod` and the VSIB `base` field (30_encoding.md R65). -/
def decodeTail (legacy : List LegacyPrefix) (p0 p1 p2 op modrm vsib : Byte) (rest : List Byte) :
    Decoded :=
  let mk (base : Base) (disp : Disp) (rest : List Byte) : Decoded :=
    .ok ((formOf op p1 p2).instr (operandsOf legacy p0 p2 modrm vsib base disp)) rest
  let reg : Base := .reg (baseRegOf p0 vsib)
  if modrm.extractLsb' 6 2 = 0#2 then
    if vsib.extractLsb' 0 3 = 5#3 then
      match rest with
      | b0 :: b1 :: b2 :: b3 :: rest' =>
          mk (.absent (bitAt p0 5)) (.disp32 (disp32Of b0 b1 b2 b3)) rest'
      | _ => .needMore true
    else mk reg .none rest
  else if modrm.extractLsb' 6 2 = 1#2 then
    match rest with
    | b0 :: rest' => mk reg (.disp8 b0) rest'
    | _ => .needMore true
  else
    match rest with
    | b0 :: b1 :: b2 :: b3 :: rest' => mk reg (.disp32 (disp32Of b0 b1 b2 b3)) rest'
    | _ => .needMore true

/-- Steps 2 to 7 of 30_encoding.md R95, after the byte `62`: `bad` says that a prefix of R86 was seen.
The causes of `#UD` that depend on the machine's state (address size, features, enables) and the
writemask k0 are checked when the instruction executes (log 24). -/
def decodeEvex (m : Mode) (legacy : List LegacyPrefix) (bad : Bool) : List Byte → Decoded
  | [] => .needMore false
  | p0 :: tail =>
      if m = .m32 ∧ p0.extractLsb' 6 2 ≠ 3#2 then .notInFamily
      else
        match tail with
        | p1 :: p2 :: op :: rest =>
            if !inFamily p0 p1 op then .notInFamily
            else
              match rest with
              | [] => .needMore true
              | modrm :: rest =>
                  if bad || reservedField p0 p1 p2 modrm then .invalidOpcode
                  else
                    match rest with
                    | [] => .needMore true
                    | vsib :: rest => decodeTail legacy p0 p1 p2 op modrm vsib rest
        | _ => .needMore false

/-- Step 1 of 30_encoding.md R95: consume the legacy prefixes, then the byte `62`. -/
def decodeFrom (m : Mode) (seen : List LegacyPrefix) (bad : Bool) : List Byte → Decoded
  | [] => .needMore false
  | b :: rest =>
      match classifyByte m b with
      | .legacy p => decodeFrom m (seen ++ [p]) bad rest
      | .forbidden => decodeFrom m seen true rest
      | .other => if b = 0x62#8 then decodeEvex m seen bad rest else .notInFamily

/-- The decoder (30_encoding.md R95). -/
def decode (m : Mode) (bytes : List Byte) : Decoded := decodeFrom m [] false bytes

/-! The encoder. -/

/-- Bit `i` of a field, inverted, as it is stored in the EVEX prefix (30_encoding.md R58). -/
def invBit {n : Nat} (w : BitVec n) (i : Nat) : BitVec 1 := ~~~(w.extractLsb' i 1)

/-- The stored bit `B` (30_encoding.md R58, R72). -/
def storedB : Base → BitVec 1
  | .reg r => invBit r 3
  | .absent b => BitVec.ofBool b

/-- `P0` (30_encoding.md R58): R X B R' 00 10. -/
def encodeP0 (o : Operands) : Byte :=
  invBit o.src 3 ++ invBit o.idx 3 ++ storedB o.base ++ invBit o.src 4 ++ 0#2 ++ 2#2

/-- `EVEX.W` (30_encoding.md R59). -/
def wBit : DataWidth → BitVec 1
  | .single => 0#1
  | .double => 1#1

/-- `L'L` (30_encoding.md R60). -/
def llBits : VecLen → BitVec 2
  | .v128 => 0#2
  | .v256 => 1#2
  | .v512 => 2#2

/-- `P1` (30_encoding.md R59): W 1111 1 01. -/
def encodeP1 (f : Form) : Byte := wBit f.dw ++ 15#4 ++ 1#1 ++ 1#2

/-- `P2` (30_encoding.md R60): 0 L'L 0 V' aaa. -/
def encodeP2 (f : Form) (o : Operands) : Byte :=
  0#1 ++ llBits f.vl ++ 0#1 ++ invBit o.idx 4 ++ o.mask

/-- The opcode byte (30_encoding.md R62). -/
def opcodeByte : IndexWidth → Byte
  | .dword => 0xA2#8
  | .qword => 0xA3#8

/-- `mod` (30_encoding.md R65). -/
def modBits (base : Base) (disp : Disp) : BitVec 2 :=
  match base, disp with
  | .absent _, _ => 0#2
  | .reg _, .none => 0#2
  | .reg _, .disp8 _ => 1#2
  | .reg _, .disp32 _ => 2#2

/-- ModRM (30_encoding.md R63): mod reg 100. -/
def encodeModRM (o : Operands) : Byte := modBits o.base o.disp ++ o.src.extractLsb' 0 3 ++ 4#3

/-- The VSIB `base` field (30_encoding.md R64, R65). -/
def baseField : Base → BitVec 3
  | .reg r => r.extractLsb' 0 3
  | .absent _ => 5#3

/-- `ss` (30_encoding.md R64). -/
def ssBits : Scale → BitVec 2
  | .x1 => 0#2
  | .x2 => 1#2
  | .x4 => 2#2
  | .x8 => 3#2

/-- VSIB (30_encoding.md R64): ss index base. -/
def encodeVsib (o : Operands) : Byte := ssBits o.scale ++ o.idx.extractLsb' 0 3 ++ baseField o.base

/-- The displacement bytes, lowest first (30_encoding.md R65). -/
def encodeDisp : Disp → List Byte
  | .none => []
  | .disp8 d => [d]
  | .disp32 d => [d.extractLsb' 0 8, d.extractLsb' 8 8, d.extractLsb' 16 8, d.extractLsb' 24 8]

/-- The bytes after the legacy prefixes (30_encoding.md R55). -/
def encodeCore (f : Form) (o : Operands) : List Byte :=
  [0x62#8, encodeP0 o, encodeP1 f, encodeP2 f o, opcodeByte f.iw, encodeModRM o, encodeVsib o] ++
    encodeDisp o.disp

/-- The bytes of an instruction (30_encoding.md R55). -/
def encode (i : Instr) : List Byte :=
  i.operands.legacy.map legacyByte ++ encodeCore i.form i.operands

/-- `ilen` (30_encoding.md R80): the prefixes, seven bytes, the displacement. -/
def ilen (o : Operands) : Nat := o.legacy.length + 7 + o.disp.bytes

/-- The 48-bit number of 30_encoding.md R91: `62 P0 P1 P2 opcode ModRM`, the byte `62` in bits
47:40. -/
def opcodeWord (i : Instr) : BitVec 48 :=
  0x62#8 ++ encodeP0 i.operands ++ encodeP1 i.form ++ encodeP2 i.form i.operands ++
    opcodeByte i.form.iw ++ encodeModRM i.operands

/-- All five extension bits are stored as 1 (30_encoding.md R87), so that only registers 0 to 7 are
named. -/
def extensionBitsStoredOne (o : Operands) : Bool :=
  invBit o.src 3 == 1#1 && invBit o.src 4 == 1#1 && invBit o.idx 3 == 1#1 && invBit o.idx 4 == 1#1 &&
    storedB o.base == 1#1

/-! The words of spec/opcode_table.json. -/

/-- The low `n` bytes of `w`, the most significant first. -/
def bytesOfNat (w : Nat) : Nat → List Byte
  | 0 => []
  | n + 1 => BitVec.ofNat 8 (w / 2 ^ (8 * n)) :: bytesOfNat w n

/-- The bytes of a table word in memory order, padded with zeros to 15 bytes. The table numbers its
words with the byte `62`, the first in memory, in the TOP byte (30_encoding.md R91). A word whose top
byte is not `62` and whose low byte is `62` is read the other way round (first byte lowest), which no
word of the table's numbering can be mistaken for (log 26). -/
def tableBytes (nbits w : Nat) : List Byte :=
  let n := (nbits + 7) / 8
  let top := bytesOfNat w n
  let inOrder := if top.head? ≠ some 0x62#8 ∧ top.reverse.head? = some 0x62#8 then top.reverse else top
  inOrder ++ List.replicate (Config.maxInstrBytes - n) 0#8

/-- The instruction that the decoder reads, in M64, from a word of the table with zeros after it. -/
def decodeTableWord (nbits w : Nat) : Option Instr :=
  match decode .m64 (tableBytes nbits w) with
  | .ok i _ => some i
  | _ => none

end Sys2Proof
end

