-- ==== Sys2Proof/Machine/State.lean ====
section
/-! DEFINITION. The machine's state, as plain data, its state after reset, and the reasons a step can
stop. INVENTORY.md lists every field with the rule that names it. -/

namespace Sys2Proof.Machine

/-- Memory: (address, byte) pairs, addresses strictly rising. An address that is not listed holds no
value (log 3). -/
abbrev Memory := List Host.Cell

/-- The addresses from `first` to `last`, both included. -/
structure AddrRange where
  first : Nat
  last : Nat
deriving DecidableEq, Repr

/-- What the processor holds of one segment: its base (`SegBase` of 00_scope.md R5), and in M32 its
limit, whether its selector is null and whether it is writable (60_exceptions.md R155, R156). -/
structure SegReg where
  base : Word
  limit : BitVec 32
  null : Bool
  writable : Bool
deriving DecidableEq, Repr

/-- The six segments (30_encoding.md R56, R76). -/
structure Segments where
  es : SegReg
  cs : SegReg
  ss : SegReg
  ds : SegReg
  fs : SegReg
  gs : SegReg
deriving DecidableEq, Repr

/-- Stores to these linear addresses take a page fault whose error code has these bits
(60_exceptions.md R157): part of `StoreCheck` (20_memory.md R36; log 7). -/
structure PageRule where
  range : AddrRange
  /-- Bit 0: a protection violation; clear: page not present. -/
  present : Bool
  /-- Bit 2: the access was made in user mode. -/
  user : Bool
  /-- Bit 3: a reserved bit is set in a paging entry. -/
  rsvd : Bool
  /-- Bit 5: a protection-key violation. -/
  key : Bool
  /-- The linear address that is recorded, where it is not that of the first failing byte: "an address
  within the page that failed, which need not be `la_j`". -/
  recorded : Option Word
deriving DecidableEq, Repr

/-- A trap or interrupt that a completed element store raised and that is pending (10_state.md
R19(b)): the data breakpoint of 60_exceptions.md R160, or an interrupt of some vector. -/
inductive Event
  | dataBreakpoint
  | interrupt (vector : BitVec 8)
deriving DecidableEq, Repr

/-- A store that touches `range` raises `event` (log 11). -/
structure Watch where
  range : AddrRange
  event : Event
deriving DecidableEq, Repr

/-- The exceptions of 60_exceptions.md R150, each with what it records. -/
inductive Exc
  /-- `#UD` invalid opcode. -/
  | ud
  /-- `#NM` device not available. -/
  | nm
  /-- `#SS(0)` stack-segment fault. -/
  | ss
  /-- `#GP(0)` general protection. -/
  | gp
  /-- `#PF(code)` page fault at a linear address. -/
  | pf (code : BitVec 32) (la : Word)
  /-- `#AC` alignment check; no step raises it (R158). -/
  | ac
  /-- `#XM` SIMD floating-point; no step raises it (R159). -/
  | xm
deriving DecidableEq, Repr

/-- The state: everything the spec gives the machine (INVENTORY.md, heading State). -/
structure State where
  /-- General registers, RAX(0) to R15(15) (10_state.md R10). -/
  x : Vector Word 16
  /-- Vector registers ZMM0 to ZMM31 (10_state.md R13, R14). -/
  v : Vector Zmm 32
  /-- Opmask registers k0 to k7 (10_state.md R15). -/
  k : Vector (BitVec Config.maxKL) 8
  /-- RIP, or EIP in the low 32 bits (10_state.md R11). -/
  pc : Word
  /-- EFLAGS (10_state.md R12). -/
  eflags : BitVec 32
  /-- MXCSR (10_state.md R17). -/
  mxcsr : BitVec 32
  cr0 : Word
  /-- The faulting linear address of the last page fault (60_exceptions.md R157). -/
  cr2 : Word
  cr4 : Word
  xcr0 : Word
  /-- IA32_EFER (10_state.md R17). -/
  efer : Word
  /-- CS.L (10_state.md R17). -/
  csL : Bool
  /-- CS.D, the spec's `CS_D` (00_scope.md R5). -/
  csD : Bool
  segs : Segments
  /-- CPUID.(EAX=07H,ECX=0):EBX, the feature flags (10_state.md R17). -/
  cpuid7ebx : BitVec 32
  pageRules : List PageRule
  /-- Addresses that are not ordinary write-back memory (20_memory.md R38). -/
  notWriteBack : List AddrRange
  watches : List Watch
  pending : List Event
  mem : Memory
deriving DecidableEq, Repr

/-- Why a step stops with a fault. -/
inductive Fault
  /-- An exception is delivered, `Fault(E, info, state)` of 60_exceptions.md R165: `st` is the state at
  delivery, with the mask and memory partially updated and the pc at the instruction. Raised by the
  twelve meanings and by `step` for bytes that are no valid instruction. Safe: it is the spec's own
  outcome (decision D6; log 10). -/
  | raised (e : Exc) (st : State)
  /-- Traps or interrupts are delivered (60_exceptions.md R167): `savedFlags` is the flags image saved for
  the handler. Raised by the twelve meanings in lieu of an element's fault, and by `step`, for pending
  traps alone, before the next instruction. Safe when no watch is armed, else unsafe (log 11). -/
  | delivered (events : List Event) (savedFlags : BitVec 32) (st : State)
  /-- The fetch reached a byte that nothing has written. Raised by `step`. Safe (log 3). -/
  | unwrittenByte (addr : Nat)
deriving DecidableEq, Repr

/-- Why a step has no meaning. -/
inductive Refusal
  /-- The instruction has no meaning yet. Raised by `exec`'s refused arms only; safe. -/
  | notModelled (mnemonic : String)
  /-- The bytes are not an instruction of the family, or 15 of them do not show that they are one
  (30_encoding.md R90, 00_scope.md R4). Raised by `step`; safe. -/
  | notInFamily
  /-- Real-address or virtual-8086 mode (00_scope.md R4, decision D3). Raised by `step`; safe. -/
  | modeOutOfScope
  /-- In M32 an extension bit of the prefix is not stored as 1 (30_encoding.md R87, decision D22). Raised
  by the twelve meanings; safe. -/
  | extensionBitsInM32
  /-- The instruction's bytes reach the last byte of the address space (10_state.md R11, decision D24).
  Raised by the twelve meanings and by `step`; safe. -/
  | instructionReachesTop
  /-- An element's bytes would run past the top of the address space and its check does not fault
  (20_memory.md R49, decision D24). Raised by the twelve meanings; safe. -/
  | elementReachesTop
  /-- An element would store to memory that is not ordinary write-back memory (20_memory.md R38, decision
  D23). Raised by the twelve meanings; safe. -/
  | memoryTypeNotWriteBack
deriving DecidableEq, Repr

/-- A flat, writable segment (00_scope.md R5: base 0 recommended; log 1). -/
def SegReg.flat : SegReg := ⟨0#64, 0xFFFFFFFF#32, false, true⟩

/-- The machine after reset: the source describes none, so this is the launch state that the spec puts
in its place (10_state.md R21, 70_reset_and_hazards.md R180, R181), with the set-up of R182 items 1 to 5
done: 64-bit mode, state enabled, both features. No value is the spec's: DESIGN CHOICE (log 1), or PRESUMED,
the family's (log 2). -/
def State.reset : State where
  x := Vector.replicate 16 0#64
  v := Vector.replicate 32 0#512
  k := Vector.replicate 8 0#Config.maxKL
  pc := 0#64
  eflags := 0x2#32
  mxcsr := 0x1F80#32
  cr0 := 0x1#64
  cr2 := 0#64
  cr4 := 0x40000#64
  xcr0 := 0xE7#64
  efer := 0x400#64
  csL := true
  csD := false
  segs := ⟨.flat, .flat, .flat, .flat, .flat, .flat⟩
  cpuid7ebx := 0x80010000#32
  pageRules := []
  notWriteBack := []
  watches := []
  pending := []
  mem := []

end Sys2Proof.Machine
end

