-- ==== Sys2Proof/Machine/Flags.lean ====
section
/-! DEFINITION. EFLAGS. The family reads no status flag and writes none (10_state.md R12, 40_scatter.md
R113); its one flag effect is on the flags image saved for a handler (60_exceptions.md R167). -/

namespace Sys2Proof.Machine

/-- EFLAGS.RF, the resume flag, bit 16 (10_state.md R12). -/
def resumeFlag (eflags : BitVec 32) : Bool := bitAt eflags 16

/-- EFLAGS.VM, bit 17 (10_state.md R17; bit position PRESUMED, log 22). -/
def virtual8086Flag (eflags : BitVec 32) : Bool := bitAt eflags 17

/-- EFLAGS.AC, bit 18 (10_state.md R12). No instruction of the family consults it (20_memory.md R33). -/
def alignmentCheckFlag (eflags : BitVec 32) : Bool := bitAt eflags 18

/-- The flags image with RF set to one (60_exceptions.md R167). -/
def withResumeFlag (eflags : BitVec 32) : BitVec 32 := eflags ||| 0x10000#32

end Sys2Proof.Machine
end

