-- ==== Sys2Proof/Machine/Ops.lean ====
section
/-! DEFINITION. The named operations on registers, memory and control state, and the delivery of an
exception, that every meaning is written over. -/

namespace Sys2Proof.Machine

/-- What a step answers. -/
abbrev Result := Host.Outcome State Fault Refusal

/-! Registers. -/

/-- `x[r]` (10_state.md R10). -/
def State.gpr (s : State) (r : BitVec 4) : Word := s.x[r.toNat]'r.isLt

/-- `v[i]` (10_state.md R13). -/
def State.vec (s : State) (i : BitVec 5) : Zmm := s.v[i.toNat]'i.isLt

/-- `k[m]` (10_state.md R15). -/
def State.opmask (s : State) (m : BitVec 3) : BitVec Config.maxKL := s.k[m.toNat]'m.isLt

/-- `k[m] <- w` (10_state.md R15). -/
def State.setOpmask (s : State) (m : BitVec 3) (w : BitVec Config.maxKL) : State :=
  { s with k := s.k.set m.toNat w m.isLt }

/-- `pc <- target` (10_state.md R11). -/
def State.setPc (s : State) (target : Word) : State := { s with pc := target }

/-- Memory after some stores. -/
def State.setMem (s : State) (mem : Memory) : State := { s with mem := mem }

/-- The events that are pending (10_state.md R19(b)). -/
def State.setPending (s : State) (events : List Event) : State := { s with pending := events }

/-- CR2 (60_exceptions.md R157). -/
def State.setCr2 (s : State) (la : Word) : State := { s with cr2 := la }

/-! Control state (10_state.md R17). -/

/-- `MODE`: protected mode and, with LMA and CS.L, 64-bit mode; `none` in real-address and virtual-8086
mode, which are outside the spec (00_scope.md R4; bit positions log 22). -/
def State.mode (s : State) : Option Mode :=
  if !bitAt s.cr0 0 then none
  else if bitAt s.efer 10 then (if s.csL then some .m64 else some .m32)
  else if virtual8086Flag s.eflags then none
  else some .m32

/-- `STATE_ENABLED`: CR4.OSXSAVE and XCR0 bits 1, 2, 5, 6, 7 (60_exceptions.md R153). -/
def State.stateEnabled (s : State) : Bool :=
  bitAt s.cr4 18 && bitAt s.xcr0 1 && bitAt s.xcr0 2 && bitAt s.xcr0 5 && bitAt s.xcr0 6 &&
    bitAt s.xcr0 7

/-- `TS`: CR0 bit 3 (60_exceptions.md R154). -/
def State.taskSwitched (s : State) : Bool := bitAt s.cr0 3

/-- `HAS_AVX512F`: bit 16 (10_state.md R17). -/
def State.hasAvx512f (s : State) : Bool := bitAt s.cpuid7ebx 16

/-- `HAS_AVX512VL`: bit 31 (10_state.md R17). -/
def State.hasAvx512vl (s : State) : Bool := bitAt s.cpuid7ebx 31

/-- The number of linear addresses (10_state.md R18). -/
def addressSpace : Mode → Nat
  | .m64 => 2 ^ 64
  | .m32 => 2 ^ 32

/-- The address of the instruction at the pc: RIP, or EIP (10_state.md R11). -/
def State.ip (m : Mode) (s : State) : Word :=
  match m with
  | .m64 => s.pc
  | .m32 => low32 s.pc

/-- A segment's register. -/
def State.segReg (s : State) : Segment → SegReg
  | .es => s.segs.es
  | .cs => s.segs.cs
  | .ss => s.segs.ss
  | .ds => s.segs.ds
  | .fs => s.segs.fs
  | .gs => s.segs.gs

/-! Memory (10_state.md R18). -/

/-- The byte at an address, if anything has written it. -/
def Memory.read : Memory → Nat → Option Byte
  | [], _ => none
  | (a', b) :: m, a => if a = a' then some b else Memory.read m a

/-- Write one byte, keeping the addresses strictly rising. -/
def Memory.write : Memory → Nat → Byte → Memory
  | [], a, b => [(a, b)]
  | (a', b') :: m, a, b =>
      if a < a' then (a, b) :: (a', b') :: m
      else if a = a' then (a, b) :: m
      else (a', b') :: Memory.write m a b

/-- The canonical form: addresses strictly rising, and below 2^64. -/
def Memory.wf (m : Memory) : Bool :=
  decide (m.Pairwise (fun c d => c.1 < d.1)) && m.all (fun c => decide (c.1 < 2 ^ 64))

/-- One byte to be written at one address. -/
abbrev ByteWrite := Nat × Byte

/-- Write bytes one after another. -/
def Memory.writeAll (m : Memory) (ws : List ByteWrite) : Memory :=
  ws.foldl (fun m w => Memory.write m w.1 w.2) m

/-- The byte writes of `MemWrite(a, n, v)`: `v[8i+7:8i]` at `a + i`, little-endian (20_memory.md
R31). -/
def elementBytes (a n : Nat) (v : Word) : List ByteWrite :=
  (List.range n).map (fun i => (a + i, v.extractLsb' (8 * i) 8))

/-- `MemWrite(a, n, v)` (00_scope.md R7, 20_memory.md R31). -/
def Memory.store (m : Memory) (a n : Nat) (v : Word) : Memory := m.writeAll (elementBytes a n v)

/-! Address ranges. -/

/-- The address lies in the range. -/
def AddrRange.contains (r : AddrRange) (a : Nat) : Bool := decide (r.first ≤ a) && decide (a ≤ r.last)

/-- Some of the `n` bytes at `a` lie in the range. -/
def AddrRange.touches (r : AddrRange) (a n : Nat) : Bool :=
  (List.range n).any (fun i => r.contains (a + i))

/-! Exceptions (60_exceptions.md R150, R165). -/

/-- The vector of an exception (60_exceptions.md R150). -/
def Exc.vector : Exc → Nat
  | .ud => 6
  | .nm => 7
  | .ss => 12
  | .gp => 13
  | .pf _ _ => 14
  | .ac => 17
  | .xm => 19

/-- The error code that is recorded, if any (60_exceptions.md R150). -/
def Exc.errorCode : Exc → Option (BitVec 32)
  | .ud => none
  | .nm => none
  | .ss => some 0#32
  | .gp => some 0#32
  | .pf code _ => some code
  | .ac => none
  | .xm => none

/-- The error code of a page fault on a store (60_exceptions.md R157): bit 1 (write) is set, bit 4
(instruction fetch) is clear. -/
def pageFaultCode (r : PageRule) : BitVec 32 :=
  (BitVec.ofBool r.key ++ 0#1 ++ BitVec.ofBool r.rsvd ++ BitVec.ofBool r.user ++ 1#1 ++
    BitVec.ofBool r.present).setWidth 32

/-- The state in which an exception is delivered: a page fault records its address in CR2
(60_exceptions.md R157); nothing else changes (R165). -/
def atDelivery (e : Exc) (s : State) : State :=
  match e with
  | .pf _ la => s.setCr2 la
  | _ => s

/-- `raise e` (00_scope.md R7): the step ends with `Fault(E, info, state)` and the pc is not advanced
(60_exceptions.md R165, decision D6; log 10). -/
def raise (e : Exc) (s : State) : Result := .fault (.raised e (atDelivery e s))

/-- Delivery of traps or interrupts (60_exceptions.md R167): `savedFlags` is saved for the handler. -/
def deliverEvents (events : List Event) (savedFlags : BitVec 32) (s : State) : Result :=
  .fault (.delivered events savedFlags s)

/-- A trap, and not an interrupt (60_exceptions.md R160, R164). -/
def Event.isTrap : Event → Bool
  | .dataBreakpoint => true
  | .interrupt _ => false

/-- The traps that are pending. -/
def pendingTraps (s : State) : List Event := s.pending.filter Event.isTrap

/-- The interrupts that are pending. -/
def pendingInterrupts (s : State) : List Event := s.pending.filter (fun e => !e.isTrap)

end Sys2Proof.Machine
end

