-- ==== Sys2Proof/Machine/Operands.lean ====
section
/-! DEFINITION. What an instruction's operands denote: the parameters of its form, address size, segment,
effective and linear addresses, and the elements of its registers. -/

namespace Sys2Proof.Machine

/-! The parameters of a form (40_scatter.md R104). -/

/-- `IW` in bits. -/
def indexBits : IndexWidth → Nat
  | .dword => 32
  | .qword => 64

/-- `DW` in bits. -/
def dataBits : DataWidth → Nat
  | .single => 32
  | .double => 64

/-- `VL` in bits. -/
def vectorBits : VecLen → Nat
  | .v128 => 128
  | .v256 => 256
  | .v512 => 512

/-- `KL = VL / max(IW, DW)`, the number of elements (40_scatter.md R104). -/
def elementCount (f : Form) : Nat := vectorBits f.vl / max (indexBits f.iw) (dataBits f.dw)

/-- `n = DW / 8`, the bytes of one element (40_scatter.md R100), which is also the `N` of disp8*N
(30_encoding.md R77). -/
def elementSize (f : Form) : Nat := dataBits f.dw / 8

/-- The CPUID feature flags of the form are all 1 (30_encoding.md R81, R88). -/
def hasFeatures (f : Form) (s : State) : Bool :=
  s.hasAvx512f && (f.vl == .v512 || s.hasAvx512vl)

/-! Address size and segment (30_encoding.md R75, R76). -/

/-- `AS` in bits. -/
inductive AddrSize
  | as16
  | as32
  | as64
deriving DecidableEq, Repr

/-- `2^AS`: the number of effective addresses. -/
def sizeLimit : AddrSize → Nat
  | .as16 => 2 ^ 16
  | .as32 => 2 ^ 32
  | .as64 => 2 ^ 64

/-- The prefix `67` is present. -/
def hasAddressSizePrefix (o : Operands) : Bool := o.legacy.contains .addressSize

/-- `AS` (30_encoding.md R75). -/
def addressSize (m : Mode) (csD : Bool) (o : Operands) : AddrSize :=
  match m with
  | .m64 => if hasAddressSizePrefix o then .as32 else .as64
  | .m32 => if csD == hasAddressSizePrefix o then .as16 else .as32

/-- The segment a legacy prefix names, if it counts: in M64 only FS and GS do (30_encoding.md R56). -/
def countingOverride (m : Mode) : LegacyPrefix → Option Segment
  | .addressSize => none
  | .override seg => if m = .m32 ∨ seg = .fs ∨ seg = .gs then some seg else none

/-- The default segment: SS for base register 4 or 5, else DS (30_encoding.md R76). -/
def defaultSegment : Base → Segment
  | .reg r => if r = 4#4 ∨ r = 5#4 then .ss else .ds
  | .absent _ => .ds

/-- The segment of the memory operand (30_encoding.md R76): the last override that counts, else the
default. -/
def segmentOf (m : Mode) (o : Operands) : Segment :=
  (o.legacy.filterMap (countingOverride m)).getLast?.getD (defaultSegment o.base)

/-- `SegBase(seg)` (20_memory.md R30): in M64 only the bases of FS and GS count (30_encoding.md R76). -/
def segBase (m : Mode) (s : State) (seg : Segment) : Word :=
  match m with
  | .m64 => if seg = .fs ∨ seg = .gs then (s.segReg seg).base else 0#64
  | .m32 => low32 (s.segReg seg).base

/-! Addresses (40_scatter.md R101, 20_memory.md R30). -/

/-- `BASE_ADDR`: the base register, or 0 if there is none (40_scatter.md R101). -/
def baseValue (o : Operands) (s : State) : Word :=
  match o.base with
  | .reg r => s.gpr r
  | .absent _ => 0#64

/-- `SCALE` (30_encoding.md R64, R78). -/
def scaleFactor : Scale → Word
  | .x1 => 1#64
  | .x2 => 2#64
  | .x4 => 4#64
  | .x8 => 8#64

/-- `DISP` (30_encoding.md R65, R77): one byte is multiplied by `N`, four bytes are not. -/
def dispValue (f : Form) : Disp → Word
  | .none => 0#64
  | .disp8 d => d.signExtend 64 * BitVec.ofNat 64 (elementSize f)
  | .disp32 d => d.signExtend 64

/-- `trunc_AS` (00_scope.md R7). -/
def truncTo : AddrSize → Word → Word
  | .as16, a => (a.setWidth 16).setWidth 64
  | .as32, a => low32 a
  | .as64, a => a

/-- `EA` (40_scatter.md R101): base plus scaled index plus displacement, modulo 2^64, then truncated. -/
def effectiveAddress (sz : AddrSize) (base index scale disp : Word) : Word :=
  truncTo sz (base + index * scale + disp)

/-- `trunc_W(base + ea)`, the linear address of an effective address over a segment base (20_memory.md
R30). -/
def linearOver (m : Mode) (base ea : Word) : Word :=
  match m with
  | .m64 => base + ea
  | .m32 => low32 (base + ea)

/-- The linear address (20_memory.md R30). -/
def linearAddress (m : Mode) (s : State) (seg : Segment) (ea : Word) : Word :=
  linearOver m (segBase m s seg) ea

/-! Elements of the vector registers (40_scatter.md R130). -/

/-- `sext_64` of index element `j` (40_scatter.md R101). -/
def indexElement (iw : IndexWidth) (w : Zmm) (j : Nat) : Word :=
  match iw with
  | .dword => (w.extractLsb' (32 * j) 32).signExtend 64
  | .qword => w.extractLsb' (64 * j) 64

/-- Data element `j`, zero-extended to 64 bits: only its own `DW` bits are stored. -/
def dataElement (dw : DataWidth) (w : Zmm) (j : Nat) : Word :=
  match dw with
  | .single => (w.extractLsb' (32 * j) 32).setWidth 64
  | .double => w.extractLsb' (64 * j) 64

/-- The effective address of element `j`. -/
def elementAddress (m : Mode) (f : Form) (o : Operands) (s : State) (j : Nat) : Word :=
  effectiveAddress (addressSize m s.csD o) (baseValue o s) (indexElement f.iw (s.vec o.idx) j)
    (scaleFactor o.scale) (dispValue f o.disp)

/-- Where the next instruction begins (10_state.md R11). -/
def nextPc (m : Mode) (o : Operands) (s : State) : Word :=
  match m with
  | .m64 => s.pc + BitVec.ofNat 64 (ilen o)
  | .m32 => low32 (low32 s.pc + BitVec.ofNat 64 (ilen o))

/-- The instruction's bytes reach the last byte of the address space (10_state.md R11). -/
def instructionReachesTop (m : Mode) (o : Operands) (s : State) : Bool :=
  decide (addressSpace m ≤ (s.ip m).toNat + ilen o)

end Sys2Proof.Machine
end

