-- ==== Sys2Proof/Machine/StoreCheck.lean ====
section
/-! DEFINITION. `StoreCheck(seg, ea, n, st)` (20_memory.md R36): whether an element's store is permitted,
and the fault to deliver if it is not. Segment-level checks come before paging, and lower bytes first
(60_exceptions.md R163). The platform's part is data in State (log 7, log 8). -/

namespace Sys2Proof.Machine

/-- A linear address is canonical when its bits 63 down to `LA_BITS - 1` are all equal (20_memory.md
R49). -/
def canonical (la : Word) : Bool :=
  let top := la.extractLsb' (Config.laBits - 1) (65 - Config.laBits)
  top == 0 || top == BitVec.allOnes (65 - Config.laBits)

/-- The fault of an illegal address in a segment (60_exceptions.md R155, R156). -/
def segmentFault : Segment → Exc
  | .ss => .ss
  | _ => .gp

/-- The linear address at which byte `i` of an element is checked. That the bytes of an element that runs
past the top of the address space are checked at the wrapped addresses is the model's choice, DESIGN
CHOICE (20_memory.md R49 and decision D24 leave the wrap of a multi-byte access open; log 36). -/
def byteAddress (m : Mode) (la : Word) (i : Nat) : Word :=
  match m with
  | .m64 => la + BitVec.ofNat 64 i
  | .m32 => low32 (la + BitVec.ofNat 64 i)

/-- Some byte of the element has a non-canonical address (20_memory.md R49). -/
def nonCanonical (la : Word) (n : Nat) : Bool :=
  (List.range n).any (fun i => !canonical (byteAddress .m64 la i))

/-- Some byte of the element lies outside the segment's limit (60_exceptions.md R155, R156). -/
def outsideLimit (r : SegReg) (ea : Word) (n : Nat) : Bool :=
  (List.range n).any (fun i => decide (r.limit.toNat < (low32 (ea + BitVec.ofNat 64 i)).toNat))

/-- The segment-level checks (60_exceptions.md R155, R156; 20_memory.md R49). -/
def segmentCheck (m : Mode) (s : State) (seg : Segment) (ea la : Word) (n : Nat) : Option Exc :=
  match m with
  | .m64 => if nonCanonical la n then some (segmentFault seg) else none
  | .m32 =>
      let r := s.segReg seg
      if seg ≠ .ss ∧ (r.null ∨ ¬ r.writable) then some .gp
      else if outsideLimit r ea n then some (segmentFault seg)
      else none

/-- The page fault of the first byte, from the lowest, that a page rule refuses (60_exceptions.md R157,
R163). -/
def pageCheck (m : Mode) (s : State) (la : Word) (n : Nat) : Option Exc :=
  (List.range n).findSome? fun i =>
    (s.pageRules.find? fun r => r.range.contains (byteAddress m la i).toNat).map fun r =>
      .pf (pageFaultCode r) (r.recorded.getD (byteAddress m la i))

/-- `StoreCheck(seg, ea, n, st)` (20_memory.md R36). -/
def storeCheck (m : Mode) (s : State) (seg : Segment) (ea : Word) (n : Nat) : Option Exc :=
  let la := linearAddress m s seg ea
  (segmentCheck m s seg ea la n).or (pageCheck m s la n)

end Sys2Proof.Machine
end

