-- ==== Sys2Proof/Machine/Scatter.lean ====
section
/-! DEFINITION. The common procedure of the twelve forms (40_scatter.md R100), from which each meaning
is one line: the checks before any element, the lanes, completion, suspension. -/

namespace Sys2Proof.Machine

/-- One active lane (40_scatter.md R130): its number, effective and linear address, data, and the answer
of its access check. -/
structure Lane where
  j : Nat
  ea : Word
  la : Word
  data : Word
  chk : Option Exc
deriving DecidableEq, Repr

/-- Lane `j` of an instruction (40_scatter.md R100): all inputs are read before any store. -/
def laneAt (m : Mode) (f : Form) (o : Operands) (s : State) (j : Nat) : Lane :=
  let ea := elementAddress m f o s j
  { j := j
    ea := ea
    la := linearAddress m s (segmentOf m o) ea
    data := dataElement f.dw (s.vec o.src) j
    chk := storeCheck m s (segmentOf m o) ea (elementSize f) }

/-- Element `j` takes part (40_scatter.md R105). -/
def isActive (o : Operands) (s : State) (j : Nat) : Bool := bitAt (s.opmask o.mask) j

/-- The active lanes, in ascending order (40_scatter.md R100, `Active`). -/
def activeLanes (m : Mode) (f : Form) (o : Operands) (s : State) : List Lane :=
  ((List.range (elementCount f)).filter (isActive o s)).map (laneAt m f o s)

/-- The byte writes of one lane's store, `MemWrite(la_j, n, data_j)` (40_scatter.md R103). -/
def laneBytes (n : Nat) (l : Lane) : List ByteWrite := elementBytes l.la.toNat n l.data

/-- Memory after the stores of some lanes, in the order of the list (20_memory.md R48). -/
def storeLanes (n : Nat) (mem : Memory) (ls : List Lane) : Memory := mem.writeAll (ls.flatMap (laneBytes n))

/-- `k[m][j] <- 0` for each lane (40_scatter.md R106). -/
def clearLanes (w : BitVec Config.maxKL) (ls : List Lane) : BitVec Config.maxKL :=
  ls.foldl (fun w l => w &&& ~~~(BitVec.twoPow Config.maxKL l.j)) w

/-- The element's bytes would run past the top of its address size or of the linear address space
(20_memory.md R49; log 15). -/
def laneReachesTop (m : Mode) (sz : AddrSize) (n : Nat) (l : Lane) : Bool :=
  decide (sizeLimit sz < l.ea.toNat + n) || decide (addressSpace m < l.la.toNat + n)

/-- The element's store is to memory that is not ordinary write-back memory (20_memory.md R38). -/
def laneNotWriteBack (s : State) (n : Nat) (l : Lane) : Bool :=
  s.notWriteBack.any (fun r => r.touches l.la.toNat n)

/-- Why the model refuses to store these lanes, if it does. Lanes whose check faults store nothing. -/
def laneRefusal (m : Mode) (f : Form) (o : Operands) (s : State) (ls : List Lane) : Option Refusal :=
  let stored := ls.filter (fun l => l.chk.isNone)
  if stored.any (laneReachesTop m (addressSize m s.csD o) (elementSize f)) then some .elementReachesTop
  else if stored.any (laneNotWriteBack s (elementSize f)) then some .memoryTypeNotWriteBack
  else none

/-- The events that the stores of some lanes raise (10_state.md R19(b); log 11). -/
def raisedEvents (s : State) (n : Nat) (ls : List Lane) : List Event :=
  ls.flatMap fun l => (s.watches.filter (fun w => w.range.touches l.la.toNat n)).map (·.event)

/-- The lowest-numbered lane whose check faults, with its fault (60_exceptions.md R162). -/
def firstFault (ls : List Lane) : Option (Lane × Exc) :=
  ls.findSome? fun l => l.chk.map fun e => (l, e)

/-- `Done` of 40_scatter.md R100 when lane `f` faults: every lane below it, and those above it that do
not fault and that the implementation completes (R102, R107). -/
def doneLanes (s : State) (f : Nat) (ls : List Lane) : List Lane :=
  ls.filter fun l =>
    decide (l.j < f) || (decide (f < l.j) && l.chk.isNone && Config.leftSubset State s f l.j)

/-- The instruction completes (40_scatter.md R100, R106): the stores, the whole mask zero, the pc at the
next instruction. -/
def complete (m : Mode) (f : Form) (o : Operands) (s : State) (ls : List Lane) : State :=
  (((s.setMem (storeLanes (elementSize f) s.mem ls)).setOpmask o.mask 0#Config.maxKL).setPc
    (nextPc m o s)).setPending (s.pending ++ raisedEvents s (elementSize f) ls)

/-- Memory and mask when the lanes `done` are complete and the instruction is not (40_scatter.md R107).
The mask's bits at and above KL keep their values (decision D9; log 19). -/
def partly (f : Form) (o : Operands) (s : State) (done : List Lane) : State :=
  (s.setMem (storeLanes (elementSize f) s.mem done)).setOpmask o.mask
    (clearLanes (s.opmask o.mask) done)

/-- The instruction is suspended at a fault (40_scatter.md R107). Traps or interrupts that completed
elements raised are delivered in lieu of the fault, with RF set in the saved flags (60_exceptions.md
R167); what was pending before stays so (log 11, log 12). -/
def suspend (f : Form) (o : Operands) (s : State) (done : List Lane) (e : Exc) : Result :=
  match raisedEvents s (elementSize f) done with
  | [] => raise e (partly f o s done)
  | events => deliverEvents events (withResumeFlag s.eflags) (partly f o s done)

/-- `Scatter` of 40_scatter.md R100, after the checks at decode. -/
def runScatter (m : Mode) (f : Form) (o : Operands) (s : State) : Result :=
  let ls := activeLanes m f o s
  match laneRefusal m f o s ls with
  | some r => .refused r
  | none =>
      match firstFault ls with
      | none => .next (complete m f o s ls)
      | some (l, e) => suspend f o s (doneLanes s l.j ls) e

/-- The causes of `#UD` that the decoder leaves to execution (60_exceptions.md R151, R152): k0 as
writemask, 16-bit addresses, a missing feature, AVX-512 state not enabled. -/
def undefinedOpcode (m : Mode) (f : Form) (o : Operands) (s : State) : Bool :=
  o.mask == 0#3 || addressSize m s.csD o == .as16 || !hasFeatures f s || !s.stateEnabled

/-- One execution attempt of an instruction of the family. The checks stand in the order of
30_encoding.md R95 and 60_exceptions.md R161: `#UD`, the encodings the model refuses, `#NM`, the
elements. In real-address and virtual-8086 mode every EVEX-encoded instruction is `#UD` (R152(f)). -/
def scatter (f : Form) (o : Operands) (s : State) : Result :=
  match s.mode with
  | none => raise .ud s
  | some m =>
      if undefinedOpcode m f o s then raise .ud s
      else if m = .m32 ∧ ¬ extensionBitsStoredOne o then .refused .extensionBitsInM32
      else if instructionReachesTop m o s then .refused .instructionReachesTop
      else if s.taskSwitched then raise .nm s
      else runScatter m f o s

end Sys2Proof.Machine
end

