-- ==== Sys2Proof/Machine/Vscatterdpd.lean ====
section
/-! DEFINITION. VSCATTERDPD: scatter packed double-precision values with signed dword indices (40_scatter.md R115). -/

namespace Sys2Proof.Machine

/-- VSCATTERDPD, 128-bit form: 2 elements (40_scatter.md R121). -/
def execVscatterdpd128 (o : Operands) (s : State) : Result :=
  scatter ⟨.dword, .double, .v128⟩ o s

/-- VSCATTERDPD, 256-bit form: 4 elements (40_scatter.md R122). -/
def execVscatterdpd256 (o : Operands) (s : State) : Result :=
  scatter ⟨.dword, .double, .v256⟩ o s

/-- VSCATTERDPD, 512-bit form: 8 elements (40_scatter.md R123). -/
def execVscatterdpd512 (o : Operands) (s : State) : Result :=
  scatter ⟨.dword, .double, .v512⟩ o s

end Sys2Proof.Machine
end

