-- ==== Sys2Proof/Machine/Vscatterdps.lean ====
section
/-! DEFINITION. VSCATTERDPS: scatter packed single-precision values with signed dword indices (40_scatter.md R114). -/

namespace Sys2Proof.Machine

/-- VSCATTERDPS, 128-bit form: 4 elements (40_scatter.md R118). -/
def execVscatterdps128 (o : Operands) (s : State) : Result :=
  scatter ⟨.dword, .single, .v128⟩ o s

/-- VSCATTERDPS, 256-bit form: 8 elements (40_scatter.md R119). -/
def execVscatterdps256 (o : Operands) (s : State) : Result :=
  scatter ⟨.dword, .single, .v256⟩ o s

/-- VSCATTERDPS, 512-bit form: 16 elements (40_scatter.md R120). -/
def execVscatterdps512 (o : Operands) (s : State) : Result :=
  scatter ⟨.dword, .single, .v512⟩ o s

end Sys2Proof.Machine
end

