-- ==== Sys2Proof/Machine/Vscatterqpd.lean ====
section
/-! DEFINITION. VSCATTERQPD: scatter packed double-precision values with signed qword indices (40_scatter.md R117). -/

namespace Sys2Proof.Machine

/-- VSCATTERQPD, 128-bit form: 2 elements (40_scatter.md R127). -/
def execVscatterqpd128 (o : Operands) (s : State) : Result :=
  scatter ⟨.qword, .double, .v128⟩ o s

/-- VSCATTERQPD, 256-bit form: 4 elements (40_scatter.md R128). -/
def execVscatterqpd256 (o : Operands) (s : State) : Result :=
  scatter ⟨.qword, .double, .v256⟩ o s

/-- VSCATTERQPD, 512-bit form: 8 elements (40_scatter.md R129). -/
def execVscatterqpd512 (o : Operands) (s : State) : Result :=
  scatter ⟨.qword, .double, .v512⟩ o s

end Sys2Proof.Machine
end

