-- ==== Sys2Proof/Machine/Vscatterqps.lean ====
section
/-! DEFINITION. VSCATTERQPS: scatter packed single-precision values with signed qword indices (40_scatter.md R116). -/

namespace Sys2Proof.Machine

/-- VSCATTERQPS, 128-bit form: 2 elements (40_scatter.md R124). -/
def execVscatterqps128 (o : Operands) (s : State) : Result :=
  scatter ⟨.qword, .single, .v128⟩ o s

/-- VSCATTERQPS, 256-bit form: 4 elements (40_scatter.md R125). -/
def execVscatterqps256 (o : Operands) (s : State) : Result :=
  scatter ⟨.qword, .single, .v256⟩ o s

/-- VSCATTERQPS, 512-bit form: 8 elements (40_scatter.md R126). -/
def execVscatterqps512 (o : Operands) (s : State) : Result :=
  scatter ⟨.qword, .single, .v512⟩ o s

end Sys2Proof.Machine
end

