-- ==== Sys2Proof/Machine/Dispatch.lean ====
section
/-! DEFINITION. One arm per constructor of Instr: the instruction's meaning. -/

namespace Sys2Proof.Machine

def exec (i : Instr) (s : State) : Host.Outcome State Fault Refusal :=
  match i with
  | .vscatterdps128 o => Sys2Proof.Machine.execVscatterdps128 o s
  | .vscatterdps256 o => Sys2Proof.Machine.execVscatterdps256 o s
  | .vscatterdps512 o => Sys2Proof.Machine.execVscatterdps512 o s
  | .vscatterdpd128 o => Sys2Proof.Machine.execVscatterdpd128 o s
  | .vscatterdpd256 o => Sys2Proof.Machine.execVscatterdpd256 o s
  | .vscatterdpd512 o => Sys2Proof.Machine.execVscatterdpd512 o s
  | .vscatterqps128 o => Sys2Proof.Machine.execVscatterqps128 o s
  | .vscatterqps256 o => Sys2Proof.Machine.execVscatterqps256 o s
  | .vscatterqps512 o => Sys2Proof.Machine.execVscatterqps512 o s
  | .vscatterqpd128 o => Sys2Proof.Machine.execVscatterqpd128 o s
  | .vscatterqpd256 o => Sys2Proof.Machine.execVscatterqpd256 o s
  | .vscatterqpd512 o => Sys2Proof.Machine.execVscatterqpd512 o s

end Sys2Proof.Machine
end

