-- ==== Sys2Proof/Machine/Fetch.lean ====
section
/-! DEFINITION. Fetching an instruction's bytes (20_memory.md R34, R47) and what happens when they end
before the instruction does. -/

namespace Sys2Proof.Machine

/-- Up to `n` bytes from address `a`, below `top`, stopping at the first that nothing has written. -/
def fetchBytes (mem : Memory) (top a : Nat) : Nat → List Byte
  | 0 => []
  | n + 1 =>
      if a < top then
        match mem.read a with
        | some b => b :: fetchBytes mem top (a + 1) n
        | none => []
      else []

/-- The bytes that the decoder sees: those at the pc, at most 15 (30_encoding.md R80, R95), read from
current memory (20_memory.md R47; log 21, log 29). That they are fetched from memory of any type, also from
memory declared not to be write-back, is the model's choice, DESIGN CHOICE: decision D23 and R38 refuse
stores alone (log 38). -/
def fetchWindow (m : Mode) (s : State) : List Byte :=
  fetchBytes s.mem (addressSpace m) (s.ip m).toNat Config.maxInstrBytes

/-- The bytes end before the instruction does: it is longer than 15 bytes, which is `#GP(0)` when they show
an instruction of the family (30_encoding.md R80; log 17) and refused when they do not (R90); or it
reaches the top of the address space (10_state.md R11; log 15); or a byte of it has never been written
(log 3). That 15 bytes are answered first, also where the last of them is the last byte of the address
space, is the model's choice, DESIGN CHOICE (log 39). -/
def fetchShort (m : Mode) (shown : Bool) (s : State) : Result :=
  let got := (fetchWindow m s).length
  let a := (s.ip m).toNat + got
  if got = Config.maxInstrBytes then (if shown then raise .gp s else .refused .notInFamily)
  else if addressSpace m ≤ a then .refused .instructionReachesTop
  else .fault (.unwrittenByte a)

/-- Pending traps are delivered before the next instruction; no flag of the saved image is changed
(60_exceptions.md R160; log 11). Interrupts stay pending: none is taken between instructions (R164,
decision D11; log 12). -/
def deliverPending (s : State) : Result :=
  deliverEvents (pendingTraps s) s.eflags (s.setPending (pendingInterrupts s))

/-- Place an instruction's bytes at the pc. -/
def placeAtPc (s : State) (bytes : List Byte) : State :=
  s.setMem (s.mem.writeAll ((List.range bytes.length).map fun i => (s.pc.toNat + i, bytes.getD i 0#8)))

end Sys2Proof.Machine
end

