-- ==== Sys2Proof/Machine/Step.lean ====
section
/-! DEFINITION. One step of the machine: deliver the traps that are pending, else fetch, decode and execute one
instruction (40_scatter.md R100). -/

namespace Sys2Proof.Machine

/-- One step. Real-address and virtual-8086 mode are refused first (00_scope.md R4; log 13); bytes of the
family that are no valid instruction raise `#UD` (60_exceptions.md R151, R152); other bytes are refused
(30_encoding.md R90). -/
def step (s : State) : Host.Outcome State Fault Refusal :=
  match s.mode with
  | none => .refused .modeOutOfScope
  | some m =>
      if pendingTraps s ≠ [] then deliverPending s
      else
        match decode m (fetchWindow m s) with
        | .ok i _ => exec i s
        | .invalidOpcode => raise .ud s
        | .notInFamily => .refused .notInFamily
        | .needMore shown => fetchShort m shown s

/-- `s` with the instruction of a table word, zeros after it, stored at the pc (log 26). -/
def State.withFetchWord (s : State) (nbits w : Nat) : State := placeAtPc s (tableBytes nbits w)

end Sys2Proof.Machine
end

