-- ==== Sys2Proof/Machine/Intrinsics.lean ====
section
/-! DEFINITION. The 24 C intrinsics (41_intrinsics.md R140 to R145): the form each stands for and the
memory effect of a call. They are not instructions: no step runs one. -/

namespace Sys2Proof.Machine

/-- An intrinsic: the form it stands for (41_intrinsics.md R141), and whether it is a `_mask_` one. -/
structure Intrinsic where
  form : Form
  masked : Bool
deriving DecidableEq, Repr

/-- The C name (41_intrinsics.md R140, R141). -/
def Intrinsic.name (c : Intrinsic) : String :=
  (match c.form.vl with | .v128 => "_mm" | .v256 => "_mm256" | .v512 => "_mm512") ++
    (if c.masked then "_mask" else "") ++
    (match c.form.iw with | .dword => "_i32scatter_" | .qword => "_i64scatter_") ++
    (match c.form.dw with | .single => "ps" | .double => "pd")

/-- The intrinsics of one vector length, in the order of 41_intrinsics.md R140. -/
def intrinsicsOf (vl : VecLen) : List Intrinsic :=
  [⟨⟨.dword, .double, vl⟩, false⟩, ⟨⟨.dword, .double, vl⟩, true⟩,
   ⟨⟨.dword, .single, vl⟩, false⟩, ⟨⟨.dword, .single, vl⟩, true⟩,
   ⟨⟨.qword, .double, vl⟩, false⟩, ⟨⟨.qword, .double, vl⟩, true⟩,
   ⟨⟨.qword, .single, vl⟩, false⟩, ⟨⟨.qword, .single, vl⟩, true⟩]

/-- The 24 intrinsics, in the order of 41_intrinsics.md R140. -/
def intrinsics : List Intrinsic := intrinsicsOf .v512 ++ intrinsicsOf .v256 ++ intrinsicsOf .v128

/-- Element `j` is stored: bit `j` of the mask argument, or always for an intrinsic without `_mask_`
(41_intrinsics.md R143, R144). -/
def Intrinsic.stores (c : Intrinsic) (k : BitVec 16) (j : Nat) : Bool := !c.masked || bitAt k j

/-- Where a call is executed. R142 to R145 name no `MODE`, no `AS` and no segment: that a call's effect
depends on them as its form's does is the model's choice, DESIGN CHOICE (log 37). -/
structure CallContext where
  mode : Mode
  size : AddrSize
  segBase : Word
deriving DecidableEq, Repr

/-- The linear address of one element of a call (41_intrinsics.md R142; 40_scatter.md R101, 20_memory.md
R30). -/
def CallContext.address (x : CallContext) (base index : Word) (scale : Scale) : Nat :=
  (linearOver x.mode x.segBase (effectiveAddress x.size base index (scaleFactor scale) 0#64)).toNat

/-- What a call does to memory (41_intrinsics.md R142 to R144): `base` is the base address, `vdx` the
indices, `a` the data, `k` the mask argument; there is no displacement. It is the effect of one unsuspended
execution of the form: that a call whose form was suspended and restarted has no other, although overlapping
elements can then end otherwise (60_exceptions.md R168, 93_implementation_defined.md U1), is the model's
choice, DESIGN CHOICE (41_intrinsics.md R143, R145; log 40). -/
def Intrinsic.effect (c : Intrinsic) (x : CallContext) (base : Word) (k : BitVec 16) (vdx a : Zmm)
    (scale : Scale) (mem : Memory) : Memory :=
  (List.range (elementCount c.form)).foldl
    (fun mem j =>
      if c.stores k j then
        mem.store (x.address base (indexElement c.form.iw vdx j) scale) (elementSize c.form)
          (dataElement c.form.dw a j)
      else mem)
    mem

end Sys2Proof.Machine
end

