-- ==== Sys2Proof/Safety.lean ====
section
/-! DEFINITION. The terms claims use: when an instruction executes normally, the source's own loops, the
orders in which another observer may see the stores of one scatter, and the state's invariant. -/

namespace Sys2Proof

open Sys2Proof.Machine

/-- The bytes show an instruction of the family (30_encoding.md R90): after any prefixes they have `62`,
mm = 10b, pp = 01b and an opcode A2 or A3, and in M32 they are not those of BOUND (R87). -/
def ShowsFamily (m : Mode) (bytes : List Byte) : Prop :=
  ∃ before p0 p1 p2 op rest, bytes = before ++ [0x62#8, p0, p1, p2, op] ++ rest ∧
    (∀ b ∈ before, classifyByte m b ≠ .other) ∧ inFamily p0 p1 op = true ∧
    (m = .m32 → p0.extractLsb' 6 2 = 3#2)

/-- No check before the elements stops the instruction (30_encoding.md R95, 60_exceptions.md R161): mode
`m`, a mask k1 to k7, an address size of 32 or 64 bits, the form's features, AVX-512 state enabled, in
M32 only registers 0 to 7, room below the top of the address space, CR0.TS clear. -/
structure Admitted (m : Mode) (f : Form) (o : Operands) (s : State) : Prop where
  mode : s.mode = some m
  mask : o.mask ≠ 0#3
  size : addressSize m s.csD o ≠ .as16
  features : hasFeatures f s = true
  enabled : s.stateEnabled = true
  registers : m = .m32 → extensionBitsStoredOne o = true
  room : (s.ip m).toNat + ilen o < addressSpace m
  notSwitched : s.taskSwitched = false

/-- `StoreCheck`'s answer for element `j` (40_scatter.md R100, `chk_j`). -/
def elementCheck (m : Mode) (f : Form) (o : Operands) (s : State) (j : Nat) : Option Exc :=
  storeCheck m s (segmentOf m o) (elementAddress m f o s j) (elementSize f)

/-- `la_j`: the linear address of element `j` (20_memory.md R30). -/
def elementLinear (m : Mode) (f : Form) (o : Operands) (s : State) (j : Nat) : Nat :=
  (linearAddress m s (segmentOf m o) (elementAddress m f o s j)).toNat

/-- Element `j`'s bytes stay below the top of the address space (20_memory.md R49) and in ordinary
write-back memory (R38): the model does not refuse to store it. -/
def InScope (m : Mode) (f : Form) (o : Operands) (s : State) (j : Nat) : Prop :=
  (elementAddress m f o s j).toNat + elementSize f ≤ sizeLimit (addressSize m s.csD o) ∧
  elementLinear m f o s j + elementSize f ≤ addressSpace m ∧
  ∀ r ∈ s.notWriteBack, r.touches (elementLinear m f o s j) (elementSize f) = false

/-- Every active element may be stored: its check answers `None` and it is in scope. -/
def Permitted (m : Mode) (f : Form) (o : Operands) (s : State) : Prop :=
  ∀ j < elementCount f, isActive o s j = true → elementCheck m f o s j = none ∧ InScope m f o s j

/-- Element `j` is the lowest-numbered active element whose check faults, with fault `e`, and every
active element that does not fault is in scope (40_scatter.md R107, 60_exceptions.md R162). -/
structure FaultsAt (m : Mode) (f : Form) (o : Operands) (s : State) (j : Nat) (e : Exc) : Prop where
  inForm : j < elementCount f
  active : isActive o s j = true
  fault : elementCheck m f o s j = some e
  lowest : ∀ i < j, isActive o s i = true → elementCheck m f o s i = none
  scope : ∀ i < elementCount f, isActive o s i = true → elementCheck m f o s i = none →
    InScope m f o s i

/-- Element `i` is complete when the fault of element `j` is delivered (40_scatter.md R100, `Done`): it
is active and below `j`, or above `j`, not faulting, and chosen by the implementation. -/
def isDone (m : Mode) (f : Form) (o : Operands) (s : State) (j i : Nat) : Bool :=
  decide (i < elementCount f) && isActive o s i &&
    (decide (i < j) ||
      (decide (j < i) && (elementCheck m f o s i).isNone && Config.leftSubset State s j i))

/-- The numbers of the complete elements, ascending. -/
def doneElements (m : Mode) (f : Form) (o : Operands) (s : State) (j : Nat) : List Nat :=
  (List.range (elementCount f)).filter (isDone m f o s j)

/-! The source's loops (40_scatter.md R114 to R117). -/

/-- One pass of the body: `IF k1[j] THEN MEM[addr] <- data; k1[j] <- 0 FI`. -/
def loopBody (n : Nat) (addr : Nat → Nat) (data : Nat → Word)
    (r : Memory × BitVec Config.maxKL) (j : Nat) : Memory × BitVec Config.maxKL :=
  if bitAt r.2 j then
    (r.1.store (addr j) n (data j), r.2 &&& ~~~(BitVec.twoPow Config.maxKL j))
  else r

/-- `FOR j <- 0 TO KL-1 ... ENDFOR; k1[MAX_KL-1:KL] <- 0`. -/
def sourceLoop (kl n : Nat) (addr : Nat → Nat) (data : Nat → Word) (mem : Memory)
    (k1 : BitVec Config.maxKL) : Memory × BitVec Config.maxKL :=
  let r := (List.range kl).foldl (loopBody n addr data) (mem, k1)
  (r.1, (r.2.setWidth kl).setWidth Config.maxKL)

/-- The address `BASE_ADDR + index * SCALE + DISP` of the loops, truncated to the address size and
taken in the operand's segment (40_scatter.md R101, 20_memory.md R30). -/
def loopAddress (m : Mode) (o : Operands) (s : State) (disp index : Word) : Nat :=
  (linearAddress m s (segmentOf m o)
    (truncTo (addressSize m s.csD o) (baseValue o s + index * scaleFactor o.scale + disp))).toNat

/-- The state after a loop of `kl` elements of `n` bytes (40_scatter.md R100): memory and mask are the
loop's, the pc is at the next instruction, and the events of the stores are pending. -/
def afterLoop (m : Mode) (f : Form) (o : Operands) (s : State) (kl n : Nat) (addr : Nat → Nat)
    (data : Nat → Word) : State :=
  let r := sourceLoop kl n addr data s.mem (s.opmask o.mask)
  (((s.setMem r.1).setOpmask o.mask r.2).setPc (nextPc m o s)).setPending
    (s.pending ++ raisedEvents s n (activeLanes m f o s))

/-- VSCATTERDPS (40_scatter.md R114): `i <- j * 32`, `SignExtend(VINDEX[i+31:i])`, `SRC[i+31:i]`. -/
def afterDps (m : Mode) (vl : VecLen) (kl : Nat) (o : Operands) (s : State) : State :=
  afterLoop m ⟨.dword, .single, vl⟩ o s kl 4
    (fun j => loopAddress m o s (dispValue ⟨.dword, .single, vl⟩ o.disp)
      (((s.vec o.idx).extractLsb' (j * 32) 32).signExtend 64))
    (fun j => ((s.vec o.src).extractLsb' (j * 32) 32).setWidth 64)

/-- VSCATTERDPD (40_scatter.md R115): `i <- j * 64`, `k <- j * 32`, `SignExtend(VINDEX[k+31:k])`,
`SRC[i+63:i]`. -/
def afterDpd (m : Mode) (vl : VecLen) (kl : Nat) (o : Operands) (s : State) : State :=
  afterLoop m ⟨.dword, .double, vl⟩ o s kl 8
    (fun j => loopAddress m o s (dispValue ⟨.dword, .double, vl⟩ o.disp)
      (((s.vec o.idx).extractLsb' (j * 32) 32).signExtend 64))
    (fun j => (s.vec o.src).extractLsb' (j * 64) 64)

/-- VSCATTERQPS (40_scatter.md R116): `i <- j * 32`, `k <- j * 64`, `VINDEX[k+63:k]`, `SRC[i+31:i]`. -/
def afterQps (m : Mode) (vl : VecLen) (kl : Nat) (o : Operands) (s : State) : State :=
  afterLoop m ⟨.qword, .single, vl⟩ o s kl 4
    (fun j => loopAddress m o s (dispValue ⟨.qword, .single, vl⟩ o.disp)
      ((s.vec o.idx).extractLsb' (j * 64) 64))
    (fun j => ((s.vec o.src).extractLsb' (j * 32) 32).setWidth 64)

/-- VSCATTERQPD (40_scatter.md R117): `i <- j * 64`, `VINDEX[i+63:i]`, `SRC[i+63:i]`. -/
def afterQpd (m : Mode) (vl : VecLen) (kl : Nat) (o : Operands) (s : State) : State :=
  afterLoop m ⟨.qword, .double, vl⟩ o s kl 8
    (fun j => loopAddress m o s (dispValue ⟨.qword, .double, vl⟩ o.disp)
      ((s.vec o.idx).extractLsb' (j * 64) 64))
    (fun j => (s.vec o.src).extractLsb' (j * 64) 64)

/-! What another observer may see (20_memory.md R37, R40 to R43; log 23). -/

/-- One byte of one element's store: an element store is `DW/8` byte writes for other observers (20_memory.md
R37, decision D14). -/
structure StoreEvent where
  lane : Lane
  offset : Nat
deriving DecidableEq, Repr

/-- The byte write of an event. -/
def StoreEvent.write (e : StoreEvent) : ByteWrite :=
  (e.lane.la.toNat + e.offset, e.lane.data.extractLsb' (8 * e.offset) 8)

/-- The events of some lanes' stores, in ascending order. -/
def storeEvents (n : Nat) (ls : List Lane) : List StoreEvent :=
  ls.flatMap fun l => (List.range n).map fun i => ⟨l, i⟩

/-- Two elements overlap: their byte ranges share at least one byte (20_memory.md R41). -/
def overlaps (n : Nat) (l l' : Lane) : Prop :=
  l.la.toNat < l'.la.toNat + n ∧ l'.la.toNat < l.la.toNat + n

/-- `kept` are the stores performed when some are skipped: any store all of whose bytes are rewritten by
higher-numbered elements, one alone (20_memory.md R43) or several together (93_implementation_defined.md
U2). That U2's wider case is admitted, and not R43's alone, is the model's choice (log 23, DESIGN
CHOICE). -/
def KeptStores (n : Nat) (ls kept : List Lane) : Prop :=
  kept.Sublist ls ∧ ∀ l ∈ ls, l ∉ kept → ∀ b < n, ∃ l' ∈ ls, l.j < l'.j ∧
    l'.la.toNat ≤ l.la.toNat + b ∧ l.la.toNat + b < l'.la.toNat + n

/-- An order of events that other observers may see (20_memory.md R40 to R43): the events of the stores
performed, in any order in which overlapping elements come from LSB to MSB. -/
def StoreOrder (n : Nat) (ls : List Lane) (evs : List StoreEvent) : Prop :=
  ∃ kept, KeptStores n ls kept ∧ evs.Perm (storeEvents n kept) ∧
    evs.Pairwise fun e e' => e.lane.j ≤ e'.lane.j ∨ ¬ overlaps n e.lane e'.lane

/-! The invariant. -/

/-- Memory is in canonical form, and in M32 the pc is a 32-bit value (10_state.md R11, R18). -/
structure StateOk (s : State) : Prop where
  mem : s.mem.wf = true
  pc : s.mode = some .m32 → s.pc.toNat < 2 ^ 32

end Sys2Proof
end

