-- ==== Sys2Proof/Certificates/Slice0/Obligations.lean ====
section
/-! DEFINITION. The statements for the provers. OBLIGATIONS.json says what each rests on. -/

open Sys2Proof Sys2Proof.Machine

/-! Encoding. -/

/-- Decoding what the encoder wrote gives the instruction back, with every operand at every value that
the encoding admits, in both modes (in M32 only registers 0 to 7 can be named, 30_encoding.md R87). -/
def Obligations.DecodeOfEncode : Prop :=
  ∀ (m : Mode) (i : Instr) (rest : List Byte),
    i.operands.encodable = true → (m = .m32 → extensionBitsStoredOne i.operands = true) →
    decode m (encode i ++ rest) = .ok i rest

/-- Bytes that decode are the encoding of the instruction they decode to: no two encodings have one
meaning. -/
def Obligations.EncodeOfDecode : Prop :=
  ∀ (m : Mode) (bytes rest : List Byte) (i : Instr),
    decode m bytes = .ok i rest → bytes = encode i ++ rest ∧ i.operands.baseDispFit = true

/-- Words written out from the spec's encoding decode to the instructions they stand for
(95_test_vectors.md V1, V3, V4, V5). -/
def Obligations.SpecWordsDecode : Prop :=
  decode .m64 [0x62, 0xF2, 0x7D, 0x49, 0xA2, 0x14, 0x88] =
    .ok (.vscatterdps512 ⟨[], 2, 1, 1, .reg 0, .x4, .none⟩) [] ∧
  decode .m64 [0x62, 0xF2, 0xFD, 0x2A, 0xA2, 0x64, 0xDB, 0x08] =
    .ok (.vscatterdpd256 ⟨[], 4, 3, 2, .reg 3, .x8, .disp8 8⟩) [] ∧
  decode .m64 [0x62, 0xC2, 0x7D, 0x43, 0xA3, 0x24, 0x48] =
    .ok (.vscatterqps512 ⟨[], 20, 17, 3, .reg 8, .x2, .none⟩) [] ∧
  decode .m64 [0x62, 0xF2, 0xFD, 0x0F, 0xA3, 0x34, 0x2D, 0x78, 0x56, 0x34, 0x12] =
    .ok (.vscatterqpd128 ⟨[], 6, 5, 7, .absent true, .x1, .disp32 0x12345678⟩) []

/-- The six bytes `62 P0 P1 P2 opcode ModRM` of every encoding of a form are the form's `match` under
the `mask` of the opcode table (30_encoding.md R91), whatever the operands. -/
def Obligations.OpcodeWordsMatchTheTable : Prop :=
  ∀ o : Operands,
    opcodeWord (.vscatterdps128 o) &&& 0xFF0FFFF0FF07#48 = 0x62027D00A204#48 ∧
    opcodeWord (.vscatterdps256 o) &&& 0xFF0FFFF0FF07#48 = 0x62027D20A204#48 ∧
    opcodeWord (.vscatterdps512 o) &&& 0xFF0FFFF0FF07#48 = 0x62027D40A204#48 ∧
    opcodeWord (.vscatterdpd128 o) &&& 0xFF0FFFF0FF07#48 = 0x6202FD00A204#48 ∧
    opcodeWord (.vscatterdpd256 o) &&& 0xFF0FFFF0FF07#48 = 0x6202FD20A204#48 ∧
    opcodeWord (.vscatterdpd512 o) &&& 0xFF0FFFF0FF07#48 = 0x6202FD40A204#48 ∧
    opcodeWord (.vscatterqps128 o) &&& 0xFF0FFFF0FF07#48 = 0x62027D00A304#48 ∧
    opcodeWord (.vscatterqps256 o) &&& 0xFF0FFFF0FF07#48 = 0x62027D20A304#48 ∧
    opcodeWord (.vscatterqps512 o) &&& 0xFF0FFFF0FF07#48 = 0x62027D40A304#48 ∧
    opcodeWord (.vscatterqpd128 o) &&& 0xFF0FFFF0FF07#48 = 0x6202FD00A304#48 ∧
    opcodeWord (.vscatterqpd256 o) &&& 0xFF0FFFF0FF07#48 = 0x6202FD20A304#48 ∧
    opcodeWord (.vscatterqpd512 o) &&& 0xFF0FFFF0FF07#48 = 0x6202FD40A304#48

/-- A decoded instruction has taken `ilen` bytes: its prefixes, seven bytes and its displacement, and
without prefixes 7, 8 or 11 (30_encoding.md R80). -/
def Obligations.InstructionLength : Prop :=
  ∀ (m : Mode) (bytes rest : List Byte) (i : Instr), decode m bytes = .ok i rest →
    bytes.length = ilen i.operands + rest.length ∧
    (i.operands.legacy = [] →
      ilen i.operands = 7 ∨ ilen i.operands = 8 ∨ ilen i.operands = 11)

/-! What a step does with the bytes at the pc. -/

/-- A step runs the instruction that the bytes at the pc decode to (30_encoding.md R95, 40_scatter.md
R100); nothing is added around it. -/
def Obligations.StepRunsTheDecodedInstruction : Prop :=
  ∀ (s : State) (m : Mode) (i : Instr) (rest : List Byte),
    pendingTraps s = [] → s.mode = some m → decode m (fetchWindow m s) = .ok i rest → step s = exec i s

/-- When memory holds the encoding of a well-formed instruction at the pc, below the top of the address
space, a step is that instruction's meaning. -/
def Obligations.StepRunsTheEncodedInstruction : Prop :=
  ∀ (s : State) (m : Mode) (i : Instr),
    pendingTraps s = [] → s.mode = some m → i.wellFormed = true →
    (m = .m32 → extensionBitsStoredOne i.operands = true) →
    (s.ip m).toNat + ilen i.operands < addressSpace m →
    (∀ n < (encode i).length, s.mem.read ((s.ip m).toNat + n) = (encode i)[n]?) →
    step s = exec i s

/-- Bytes of the family whose ModRM.rm is not 100b raise `#UD`, for every mod and after any prefixes, and
change nothing (30_encoding.md R83). -/
def Obligations.ModRMWithoutVsibIsUndefined : Prop :=
  ∀ (s : State) (m : Mode) (before : List Byte) (p0 p1 p2 op modrm : Byte) (rest : List Byte),
    pendingTraps s = [] → s.mode = some m → (∀ b ∈ before, classifyByte m b ≠ .other) →
    fetchWindow m s = before ++ [0x62#8, p0, p1, p2, op, modrm] ++ rest →
    (m = .m32 → p0.extractLsb' 6 2 = 3#2) → inFamily p0 p1 op = true →
    modrm.extractLsb' 0 3 ≠ 4#3 → step s = .fault (.raised .ud s)

/-- Bytes of the family with a reserved field value raise `#UD`, after any prefixes, and change nothing
(30_encoding.md R85). -/
def Obligations.ReservedFieldIsUndefined : Prop :=
  ∀ (s : State) (m : Mode) (before : List Byte) (p0 p1 p2 op modrm : Byte) (rest : List Byte),
    pendingTraps s = [] → s.mode = some m → (∀ b ∈ before, classifyByte m b ≠ .other) →
    fetchWindow m s = before ++ [0x62#8, p0, p1, p2, op, modrm] ++ rest →
    (m = .m32 → p0.extractLsb' 6 2 = 3#2) → inFamily p0 p1 op = true →
    (p0.extractLsb' 2 2 ≠ 0#2 ∨ p1.extractLsb' 2 1 ≠ 1#1 ∨ p1.extractLsb' 3 4 ≠ 15#4 ∨
      p2.extractLsb' 7 1 = 1#1 ∨ p2.extractLsb' 4 1 = 1#1 ∨ p2.extractLsb' 5 2 = 3#2 ∨
      modrm.extractLsb' 6 2 = 3#2) →
    step s = .fault (.raised .ud s)

/-- Bytes of the family after a LOCK, 66, F2, F3 or (M64) REX prefix, anywhere among the prefixes, raise
`#UD` and change nothing (30_encoding.md R86). -/
def Obligations.ForbiddenPrefixIsUndefined : Prop :=
  ∀ (s : State) (m : Mode) (before : List Byte) (b p0 p1 p2 op modrm : Byte) (rest : List Byte),
    pendingTraps s = [] → s.mode = some m → (∀ b ∈ before, classifyByte m b ≠ .other) → b ∈ before →
    (b = 0xF0#8 ∨ b = 0x66#8 ∨ b = 0xF2#8 ∨ b = 0xF3#8 ∨ (m = .m64 ∧ b.extractLsb' 4 4 = 4#4)) →
    fetchWindow m s = before ++ [0x62#8, p0, p1, p2, op, modrm] ++ rest →
    (m = .m32 → p0.extractLsb' 6 2 = 3#2) → inFamily p0 p1 op = true →
    step s = .fault (.raised .ud s)

/-- Bytes that, after any prefixes, do not have `62`, mm = 10b, pp = 01b and opcode A2 or A3 are not of the
family (30_encoding.md R90), nor in M32 is a `62` before a byte whose bits 7:6 are not 11b, a BOUND
instruction (R87, R95 step 2). That they are refused, and not `#UD`, is the spec's decision D17 (log 27,
DESIGN CHOICE). -/
def Obligations.BytesOutsideTheFamilyAreRefused : Prop :=
  ∀ (s : State) (m : Mode) (before rest : List Byte),
    pendingTraps s = [] → s.mode = some m → (∀ b ∈ before, classifyByte m b ≠ .other) →
    (∀ b : Byte, fetchWindow m s = before ++ [b] ++ rest →
      classifyByte m b = .other → b ≠ 0x62#8 → step s = .refused .notInFamily) ∧
    (∀ p0 : Byte, fetchWindow m s = before ++ [0x62#8, p0] ++ rest → m = .m32 →
      p0.extractLsb' 6 2 ≠ 3#2 → step s = .refused .notInFamily) ∧
    (∀ p0 p1 p2 op : Byte,
      fetchWindow m s = before ++ [0x62#8, p0, p1, p2, op] ++ rest →
      (p0.extractLsb' 0 2 ≠ 2#2 ∨ p1.extractLsb' 0 2 ≠ 1#2 ∨ (op ≠ 0xA2#8 ∧ op ≠ 0xA3#8)) →
      step s = .refused .notInFamily)

/-- What a step does when the bytes that the fetch gives end before the instruction does. They show an
instruction of the family or they do not. At 15 bytes the first raise `#GP(0)` (30_encoding.md R80; log 17)
and the others are refused (R90; decision D17, log 27), at the top of the address space too (the model's choice, log 39);
fewer bytes that reach the top are refused (10_state.md R11); a byte that nothing has written stops the fetch (log 3). -/
def Obligations.FetchEndsBeforeTheInstruction : Prop :=
  ∀ (s : State) (m : Mode) (shown : Bool), pendingTraps s = [] → s.mode = some m →
    decode m (fetchWindow m s) = .needMore shown →
    let a := (s.ip m).toNat + (fetchWindow m s).length
    (shown = true ↔ ShowsFamily m (fetchWindow m s)) ∧
    ((fetchWindow m s).length = 15 → shown = true → step s = .fault (.raised .gp s)) ∧
    ((fetchWindow m s).length = 15 → shown = false → step s = .refused .notInFamily) ∧
    ((fetchWindow m s).length < 15 → addressSpace m ≤ a → step s = .refused .instructionReachesTop) ∧
    ((fetchWindow m s).length < 15 → a < addressSpace m →
      s.mem.read a = none ∧ step s = .fault (.unwrittenByte a))

/-- What comes before any instruction: real-address and virtual-8086 mode are refused, whatever is pending
(00_scope.md R4; log 13); in the spec's modes the pending traps are delivered, with the flags image as it is,
and pending interrupts stay pending, since none is taken between instructions (60_exceptions.md R164,
decision D11; log 12). The delivery itself is the model's choice (log 11, DESIGN CHOICE). -/
def Obligations.StepBeforeAnyInstruction : Prop :=
  ∀ s : State,
    (s.mode = none → step s = .refused .modeOutOfScope) ∧
    (∀ m, s.mode = some m → pendingTraps s ≠ [] →
      step s = .fault (.delivered (pendingTraps s) s.eflags { s with pending := pendingInterrupts s }))

/-! Exceptions at decode and the forms the model refuses. -/

/-- The writemask k0 is `#UD` for every form, and nothing changes (30_encoding.md R82). -/
def Obligations.MaskK0IsUndefined : Prop :=
  ∀ (i : Instr) (s : State), i.operands.mask = 0#3 → exec i s = .fault (.raised .ud s)

/-- A 16-bit effective address size is `#UD` for every form, whatever the other fields hold, and nothing
changes (30_encoding.md R84, R75). -/
def Obligations.SixteenBitAddressesAreUndefined : Prop :=
  ∀ (i : Instr) (s : State), s.mode = some .m32 →
    ((s.csD = true ∧ LegacyPrefix.addressSize ∈ i.operands.legacy) ∨
      (s.csD = false ∧ LegacyPrefix.addressSize ∉ i.operands.legacy)) →
    exec i s = .fault (.raised .ud s)

/-- A form whose CPUID feature flags are not all 1 is `#UD`, and so is every form while AVX-512 state is
not enabled (30_encoding.md R88). -/
def Obligations.MissingFeatureIsUndefined : Prop :=
  ∀ (i : Instr) (s : State),
    (bitAt s.cpuid7ebx 16 = false ∨ (i.form.vl ≠ .v512 ∧ bitAt s.cpuid7ebx 31 = false) ∨
      bitAt s.cr4 18 = false ∨ (∃ b ∈ [1, 2, 5, 6, 7], bitAt s.xcr0 b = false)) →
    exec i s = .fault (.raised .ud s)

/-- In real-address and virtual-8086 mode every form is `#UD` (60_exceptions.md R152(f)). -/
def Obligations.RealAndVirtualModesAreUndefined : Prop :=
  ∀ (i : Instr) (s : State),
    (bitAt s.cr0 0 = false ∨ (bitAt s.efer 10 = false ∧ bitAt s.eflags 17 = true)) →
    exec i s = .fault (.raised .ud s)

/-- With CR0.TS set an instruction that has no cause of `#UD` raises `#NM`, and nothing changes
(60_exceptions.md R154). -/
def Obligations.TaskSwitchedIsDeviceNotAvailable : Prop :=
  ∀ (i : Instr) (m : Mode) (s : State),
    Admitted m i.form i.operands { s with cr0 := s.cr0 &&& ~~~8#64 } → bitAt s.cr0 3 = true →
    exec i s = .fault (.raised .nm s)

/-- What the model refuses, after every cause of `#UD` (30_encoding.md R87, 10_state.md R11): in M32 an
encoding with an extension bit stored as 0, and an instruction that reaches the top of the address
space. -/
def Obligations.RefusedEncodings : Prop :=
  ∀ (i : Instr) (m : Mode) (s : State), s.mode = some m →
    i.operands.mask ≠ 0#3 → addressSize m s.csD i.operands ≠ .as16 →
    hasFeatures i.form s = true → s.stateEnabled = true →
    (m = .m32 → extensionBitsStoredOne i.operands = false →
      exec i s = .refused .extensionBitsInM32) ∧
    ((m = .m32 → extensionBitsStoredOne i.operands = true) →
      addressSpace m ≤ (s.ip m).toNat + ilen i.operands → exec i s = .refused .instructionReachesTop)

/-- What an instruction refuses to store, each refusal with its cause: if an active element that does not
fault would run past the top of its address size or of the address space, `elementReachesTop` (20_memory.md
R49, decision D24; log 15); if none does and one touches memory that is not ordinary write-back memory,
`memoryTypeNotWriteBack` (R38, decision D23; log 16). Which name comes first is the model's choice
(log 16). -/
def Obligations.RefusedElements : Prop :=
  ∀ (i : Instr) (m : Mode) (s : State), Admitted m i.form i.operands s →
    let stored (j : Nat) := j < elementCount i.form ∧ isActive i.operands s j = true ∧
      elementCheck m i.form i.operands s j = none
    let past (j : Nat) :=
      sizeLimit (addressSize m s.csD i.operands) <
        (elementAddress m i.form i.operands s j).toNat + elementSize i.form ∨
      addressSpace m < elementLinear m i.form i.operands s j + elementSize i.form
    ((∃ j, stored j ∧ past j) → exec i s = .refused .elementReachesTop) ∧
    ((∀ j, stored j → ¬ past j) →
      (∃ j, stored j ∧ ∃ r ∈ s.notWriteBack, ∃ b < elementSize i.form,
        r.first ≤ elementLinear m i.form i.operands s j + b ∧
        elementLinear m i.form i.operands s j + b ≤ r.last) →
      exec i s = .refused .memoryTypeNotWriteBack)

/-- Every outcome of every form: it completes, or raises `#UD`, `#NM`, `#SS(0)`, `#GP(0)` or `#PF`, or
pending events are delivered, or it is refused for one of four reasons. -/
def Obligations.OutcomesOfAnInstruction : Prop :=
  ∀ (i : Instr) (s : State),
    (∃ t, exec i s = .next t) ∨
    (∃ e t, exec i s = .fault (.raised e t) ∧
      (e = .ud ∨ e = .nm ∨ e = .ss ∨ e = .gp ∨ ∃ code la, e = .pf code la)) ∨
    (∃ events flags t, exec i s = .fault (.delivered events flags t)) ∨
    exec i s = .refused .extensionBitsInM32 ∨ exec i s = .refused .instructionReachesTop ∨
    exec i s = .refused .elementReachesTop ∨ exec i s = .refused .memoryTypeNotWriteBack

/-- No step, in any state, raises the alignment-check exception (20_memory.md R33, 60_exceptions.md R158),
nor a SIMD floating-point exception, which is the spec's decision D7 (R159; log 18, DESIGN CHOICE). -/
def Obligations.NeverAlignmentCheckNorSimd : Prop :=
  ∀ (s t : State) (e : Exc), step s = .fault (.raised e t) → e ≠ .ac ∧ e ≠ .xm

/-! Completion. -/

/-- VSCATTERDPS completes where no check stops it and every active element may be stored: its result is
that of its loop (40_scatter.md R114), in its three forms. -/
def Obligations.VscatterdpsRunsItsLoop : Prop :=
  ∀ (m : Mode) (o : Operands) (s : State),
    (Admitted m ⟨.dword, .single, .v128⟩ o s → Permitted m ⟨.dword, .single, .v128⟩ o s →
      exec (.vscatterdps128 o) s = .next (afterDps m .v128 4 o s)) ∧
    (Admitted m ⟨.dword, .single, .v256⟩ o s → Permitted m ⟨.dword, .single, .v256⟩ o s →
      exec (.vscatterdps256 o) s = .next (afterDps m .v256 8 o s)) ∧
    (Admitted m ⟨.dword, .single, .v512⟩ o s → Permitted m ⟨.dword, .single, .v512⟩ o s →
      exec (.vscatterdps512 o) s = .next (afterDps m .v512 16 o s))

/-- VSCATTERDPD completes with the result of its loop (40_scatter.md R115), in its three forms. -/
def Obligations.VscatterdpdRunsItsLoop : Prop :=
  ∀ (m : Mode) (o : Operands) (s : State),
    (Admitted m ⟨.dword, .double, .v128⟩ o s → Permitted m ⟨.dword, .double, .v128⟩ o s →
      exec (.vscatterdpd128 o) s = .next (afterDpd m .v128 2 o s)) ∧
    (Admitted m ⟨.dword, .double, .v256⟩ o s → Permitted m ⟨.dword, .double, .v256⟩ o s →
      exec (.vscatterdpd256 o) s = .next (afterDpd m .v256 4 o s)) ∧
    (Admitted m ⟨.dword, .double, .v512⟩ o s → Permitted m ⟨.dword, .double, .v512⟩ o s →
      exec (.vscatterdpd512 o) s = .next (afterDpd m .v512 8 o s))

/-- VSCATTERQPS completes with the result of its loop (40_scatter.md R116), in its three forms. -/
def Obligations.VscatterqpsRunsItsLoop : Prop :=
  ∀ (m : Mode) (o : Operands) (s : State),
    (Admitted m ⟨.qword, .single, .v128⟩ o s → Permitted m ⟨.qword, .single, .v128⟩ o s →
      exec (.vscatterqps128 o) s = .next (afterQps m .v128 2 o s)) ∧
    (Admitted m ⟨.qword, .single, .v256⟩ o s → Permitted m ⟨.qword, .single, .v256⟩ o s →
      exec (.vscatterqps256 o) s = .next (afterQps m .v256 4 o s)) ∧
    (Admitted m ⟨.qword, .single, .v512⟩ o s → Permitted m ⟨.qword, .single, .v512⟩ o s →
      exec (.vscatterqps512 o) s = .next (afterQps m .v512 8 o s))

/-- VSCATTERQPD completes with the result of its loop (40_scatter.md R117), in its three forms. -/
def Obligations.VscatterqpdRunsItsLoop : Prop :=
  ∀ (m : Mode) (o : Operands) (s : State),
    (Admitted m ⟨.qword, .double, .v128⟩ o s → Permitted m ⟨.qword, .double, .v128⟩ o s →
      exec (.vscatterqpd128 o) s = .next (afterQpd m .v128 2 o s)) ∧
    (Admitted m ⟨.qword, .double, .v256⟩ o s → Permitted m ⟨.qword, .double, .v256⟩ o s →
      exec (.vscatterqpd256 o) s = .next (afterQpd m .v256 4 o s)) ∧
    (Admitted m ⟨.qword, .double, .v512⟩ o s → Permitted m ⟨.qword, .double, .v512⟩ o s →
      exec (.vscatterqpd512 o) s = .next (afterQpd m .v512 8 o s))

/-- With no active element an instruction stores nothing, checks nothing, cannot fault on memory, clears
the whole mask and advances the pc (40_scatter.md R108). -/
def Obligations.EmptyMaskStoresNothing : Prop :=
  ∀ (i : Instr) (m : Mode) (s : State),
    Admitted m i.form i.operands s →
    (∀ j < elementCount i.form, bitAt (s.opmask i.operands.mask) j = false) →
    exec i s = .next ((s.setOpmask i.operands.mask 0#64).setPc (nextPc m i.operands s))

/-- On completion the writemask is all zero and no other opmask register has changed (40_scatter.md
R106). -/
def Obligations.CompletionClearsTheMask : Prop :=
  ∀ (i : Instr) (s t : State), exec i s = .next t →
    t.opmask i.operands.mask = 0#64 ∧
    ∀ r : BitVec 3, r ≠ i.operands.mask → t.opmask r = s.opmask r

/-- What completion leaves unchanged, for every form (10_state.md R20): every general and vector
register, every flag, MXCSR, every control register and configuration, every opmask register but the
writemask, the events pending where no watch is armed, and every byte of memory outside the active
elements' bytes. The pc goes to the next instruction. -/
def Obligations.CompletionFrame : Prop :=
  ∀ (i : Instr) (s t : State), exec i s = .next t →
    t.x = s.x ∧ t.v = s.v ∧ t.eflags = s.eflags ∧ t.mxcsr = s.mxcsr ∧ t.cr0 = s.cr0 ∧ t.cr2 = s.cr2 ∧
    t.cr4 = s.cr4 ∧ t.xcr0 = s.xcr0 ∧ t.efer = s.efer ∧ t.csL = s.csL ∧ t.csD = s.csD ∧
    t.segs = s.segs ∧ t.cpuid7ebx = s.cpuid7ebx ∧ t.pageRules = s.pageRules ∧
    t.notWriteBack = s.notWriteBack ∧ t.watches = s.watches ∧
    (s.watches = [] → t.pending = s.pending) ∧
    (∀ r : BitVec 3, r ≠ i.operands.mask → t.opmask r = s.opmask r) ∧
    ∃ m, s.mode = some m ∧ t.pc = nextPc m i.operands s ∧
      ∀ a, (∀ j < elementCount i.form, isActive i.operands s j = true →
          ¬ (elementLinear m i.form i.operands s j ≤ a ∧
            a < elementLinear m i.form i.operands s j + elementSize i.form)) →
        t.mem.read a = s.mem.read a

/-- The highest-numbered active element that covers a byte owns it after completion (20_memory.md R41),
with the element's bits unchanged, lowest byte first (40_scatter.md R103, R111). -/
def Obligations.HighestElementOwnsTheByte : Prop :=
  ∀ (i : Instr) (m : Mode) (s t : State) (j b : Nat),
    s.mode = some m → exec i s = .next t → j < elementCount i.form → isActive i.operands s j = true →
    b < elementSize i.form →
    (∀ j' < elementCount i.form, j < j' → isActive i.operands s j' = true →
      ¬ (elementLinear m i.form i.operands s j' ≤ elementLinear m i.form i.operands s j + b ∧
        elementLinear m i.form i.operands s j + b <
          elementLinear m i.form i.operands s j' + elementSize i.form)) →
    t.mem.read (elementLinear m i.form i.operands s j + b) =
      some ((s.vec i.operands.src).extractLsb' (j * dataBits i.form.dw + 8 * b) 8)

/-- Whatever order another observer sees the stores in (20_memory.md R40 to R43), memory ends as the
executing processor has it (R48). Stores are seen byte by byte, the spec's decision D14 (R37; log 23), and
those of which higher-numbered elements, one (R43) or several together (93_implementation_defined.md U2),
rewrite every byte are skipped or not. -/
def Obligations.StoreOrderDoesNotChangeMemory : Prop :=
  ∀ (i : Instr) (m : Mode) (s t : State) (evs : List StoreEvent),
    s.mode = some m → exec i s = .next t →
    StoreOrder (elementSize i.form) (activeLanes m i.form i.operands s) evs →
    ∀ a, (s.mem.writeAll (evs.map StoreEvent.write)).read a = t.mem.read a

/-- Only the bits that the form's elements occupy are read (40_scatter.md R104, R105): changing the
vector registers elsewhere changes nothing but those registers. -/
def Obligations.UnreadVectorBitsDoNotMatter : Prop :=
  ∀ (i : Instr) (s t : State) (w : Vector Zmm 32), exec i s = .next t →
    (∀ b < elementCount i.form * indexBits i.form.iw,
      bitAt (State.vec { s with v := w } i.operands.idx) b = bitAt (s.vec i.operands.idx) b) →
    (∀ b < elementCount i.form * dataBits i.form.dw,
      bitAt (State.vec { s with v := w } i.operands.src) b = bitAt (s.vec i.operands.src) b) →
    exec i { s with v := w } = .next { t with v := w }

/-- Mask bits at and above KL select nothing (40_scatter.md R105): a mask with the same low KL bits
gives the same completed state. -/
def Obligations.UpperMaskBitsSelectNothing : Prop :=
  ∀ (i : Instr) (s t : State) (w : BitVec 64), exec i s = .next t →
    (∀ b < elementCount i.form, bitAt w b = bitAt (s.opmask i.operands.mask) b) →
    exec i (s.setOpmask i.operands.mask w) = .next t

/-! Addresses. -/

/-- With a 32-bit address size only the low 32 bits of base, index and displacement matter, and the
address is below 2^32 (40_scatter.md R101). -/
def Obligations.ThirtyTwoBitAddressesUseLowHalves : Prop :=
  ∀ base index scale disp : Word,
    effectiveAddress .as32 base index scale disp =
      effectiveAddress .as32 (low32 base) (low32 index) scale (low32 disp) ∧
    (effectiveAddress .as32 base index scale disp).toNat < 2 ^ 32

/-- disp8*N (30_encoding.md R77): a one-byte displacement is sign-extended and multiplied by the size of
one data element, 4 or 8, whatever the vector length and index width; a four-byte one is not scaled. -/
def Obligations.DisplacementScaling : Prop :=
  ∀ (iw : IndexWidth) (vl : VecLen) (d : BitVec 8) (d' : BitVec 32),
    (dispValue ⟨iw, .single, vl⟩ (.disp8 d)).toInt = d.toInt * 4 ∧
    (dispValue ⟨iw, .double, vl⟩ (.disp8 d)).toInt = d.toInt * 8 ∧
    ∀ dw, (dispValue ⟨iw, dw, vl⟩ (.disp32 d')).toInt = d'.toInt

/-- The segment of the memory operand (30_encoding.md R76, R56): without an override that counts, SS for
base register 4 or 5 and DS for any other or none; with one, the last that counts. In M64 only FS and GS
count. That an ignored override after an FS or GS leaves it in force is the model's reading of these rules
and stands in neither (log 25, DEDUCED). -/
def Obligations.SegmentSelection : Prop :=
  ∀ (m : Mode) (o : Operands) (before after : List LegacyPrefix) (seg : Segment),
    ((∀ p ∈ o.legacy, p = .addressSize ∨ (m = .m64 ∧ p ≠ .override .fs ∧ p ≠ .override .gs)) →
      segmentOf m o = if o.base = .reg 4#4 ∨ o.base = .reg 5#4 then .ss else .ds) ∧
    (o.legacy = before ++ [.override seg] ++ after → (m = .m32 ∨ seg = .fs ∨ seg = .gs) →
      (∀ p ∈ after, p = .addressSize ∨ (m = .m64 ∧ p ≠ .override .fs ∧ p ≠ .override .gs)) →
      segmentOf m o = seg)

/-- The effective address (40_scatter.md R101): the base register, or 0 if there is none, plus the index
element as a signed number times the scale (30_encoding.md R78), plus the displacement, a one-byte one times
the element's size (R77), modulo 2^64 in M64 without the prefix 67 and otherwise modulo 2^32 (R75). -/
def Obligations.EffectiveAddressIsTheSum : Prop :=
  ∀ (m : Mode) (f : Form) (o : Operands) (s : State) (j : Nat), addressSize m s.csD o ≠ .as16 →
    ((elementAddress m f o s j).toNat : Int) =
      ((match o.base with
          | .reg r => ((s.x[r.toNat]'r.isLt).toNat : Int)
          | .absent _ => 0) +
        (match f.iw with
          | .dword => ((s.v[o.idx.toNat]'o.idx.isLt).extractLsb' (32 * j) 32).toInt
          | .qword => ((s.v[o.idx.toNat]'o.idx.isLt).extractLsb' (64 * j) 64).toInt) *
        (match o.scale with
          | .x1 => 1
          | .x2 => 2
          | .x4 => 4
          | .x8 => 8) +
        (match o.disp with
          | .none => 0
          | .disp8 d => d.toInt * (match f.dw with | .single => 4 | .double => 8)
          | .disp32 d => d.toInt)) %
      (if m = .m64 ∧ LegacyPrefix.addressSize ∉ o.legacy then 2 ^ 64 else 2 ^ 32)

/-- The linear address (20_memory.md R30, 30_encoding.md R76): in M64 the base of FS or GS is added, modulo
2^64, and no other segment's; in M32 each segment's base is added, modulo 2^32. -/
def Obligations.LinearAddressAddsTheSegmentBase : Prop :=
  ∀ (s : State) (ea : Word),
    (linearAddress .m64 s .fs ea).toNat = (s.segs.fs.base.toNat + ea.toNat) % 2 ^ 64 ∧
    (linearAddress .m64 s .gs ea).toNat = (s.segs.gs.base.toNat + ea.toNat) % 2 ^ 64 ∧
    (∀ seg, seg ≠ .fs → seg ≠ .gs → linearAddress .m64 s seg ea = ea) ∧
    (linearAddress .m32 s .es ea).toNat = (s.segs.es.base.toNat + ea.toNat) % 2 ^ 32 ∧
    (linearAddress .m32 s .cs ea).toNat = (s.segs.cs.base.toNat + ea.toNat) % 2 ^ 32 ∧
    (linearAddress .m32 s .ss ea).toNat = (s.segs.ss.base.toNat + ea.toNat) % 2 ^ 32 ∧
    (linearAddress .m32 s .ds ea).toNat = (s.segs.ds.base.toNat + ea.toNat) % 2 ^ 32 ∧
    (linearAddress .m32 s .fs ea).toNat = (s.segs.fs.base.toNat + ea.toNat) % 2 ^ 32 ∧
    (linearAddress .m32 s .gs ea).toNat = (s.segs.gs.base.toNat + ea.toNat) % 2 ^ 32

/-! Faults of elements. -/

/-- In M64 an element any byte of which has a non-canonical address faults with `#SS(0)` when its
segment is SS and with `#GP(0)` otherwise (20_memory.md R49, 60_exceptions.md R155, R156). Bits 63 to 47
fix `LA_BITS` = 48, the spec's decision D21 (log 5, DESIGN CHOICE); that no page rule comes before this is
the model's (log 7), and so are the wrapped addresses of bytes past the top (log 36). -/
def Obligations.NonCanonicalElementFaults : Prop :=
  ∀ (f : Form) (o : Operands) (s : State) (j b p q : Nat), b < elementSize f →
    47 ≤ p → p < 64 → 47 ≤ q → q < 64 →
    bitAt (linearAddress .m64 s (segmentOf .m64 o) (elementAddress .m64 f o s j) + BitVec.ofNat 64 b) p
      ≠ bitAt (linearAddress .m64 s (segmentOf .m64 o) (elementAddress .m64 f o s j) +
          BitVec.ofNat 64 b) q →
    elementCheck .m64 f o s j = some (if segmentOf .m64 o = .ss then .ss else .gp)

/-- In M32 an element any byte of which lies outside its segment's limit faults: `#SS(0)` in SS,
`#GP(0)` elsewhere; so does any element in a null or read-only segment other than SS
(60_exceptions.md R155, R156). How limits are compared is the model's choice (log 8). -/
def Obligations.SegmentLimitFaults : Prop :=
  ∀ (f : Form) (o : Operands) (s : State) (j b : Nat), b < elementSize f →
    let seg := segmentOf .m32 o
    let r := s.segReg seg
    (r.limit.toNat < (low32 (elementAddress .m32 f o s j + BitVec.ofNat 64 b)).toNat →
      elementCheck .m32 f o s j = some (if seg = .ss then .ss else .gp)) ∧
    (seg ≠ .ss → (r.null = true ∨ r.writable = false) → elementCheck .m32 f o s j = some .gp)

/-- A page fault of an element is a write fault; the first of the element's bytes that a page rule covers
takes it, and its address is recorded, or another that the rule names; CR2 receives what is recorded
(60_exceptions.md R157, R163; the rules are the model's data, log 7, and so are the wrapped addresses of
bytes past the top, log 36). -/
def Obligations.PageFaultRecordsTheAddress : Prop :=
  ∀ (i : Instr) (s t : State) (code : BitVec 32) (la : Word),
    exec i s = .fault (.raised (.pf code la) t) →
    t.cr2 = la ∧ bitAt code 1 = true ∧ bitAt code 4 = false ∧
    ∃ m j b r, s.mode = some m ∧ FaultsAt m i.form i.operands s j (.pf code la) ∧
      b < elementSize i.form ∧
      r ∈ s.pageRules ∧
      let byte (n : Nat) := byteAddress m
        (linearAddress m s (segmentOf m i.operands) (elementAddress m i.form i.operands s j)) n
      r.range.contains (byte b).toNat = true ∧ la = r.recorded.getD (byte b) ∧
      bitAt code 0 = r.present ∧ bitAt code 2 = r.user ∧ bitAt code 3 = r.rsvd ∧ bitAt code 5 = r.key ∧
      ∀ b' < b, ∀ r' ∈ s.pageRules, r'.range.contains (byte b').toNat = false

/-- Suspension (40_scatter.md R107): when element `j` is the lowest active element that faults and no
complete element raised an event, its fault is delivered with the pc unchanged; memory has the stores of the
complete elements, in ascending order, and no other; exactly their mask bits are cleared; nothing else
changes but CR2 for a page fault (60_exceptions.md R165). That bits at and above KL are kept is the spec's
decision D9 (log 19, DESIGN CHOICE), that the faulting element writes no byte its decision D10 (log 20,
DESIGN CHOICE); which elements above `j` are complete is a free value (log 6). -/
def Obligations.FaultSuspendsTheInstruction : Prop :=
  ∀ (i : Instr) (m : Mode) (s : State) (j : Nat) (e : Exc),
    let f := i.form
    let o := i.operands
    Admitted m f o s → FaultsAt m f o s j e →
    raisedEvents s (elementSize f) (doneLanes s j (activeLanes m f o s)) = [] →
    ∃ k' : BitVec 64,
      (∀ b, bitAt k' b = (bitAt (s.opmask o.mask) b && !isDone m f o s j b)) ∧
      exec i s = .fault (.raised e (atDelivery e
        ((s.setMem ((doneElements m f o s j).foldl
          (fun mem n => mem.store (elementLinear m f o s n) (elementSize f)
            (dataElement f.dw (s.vec o.src) n)) s.mem)).setOpmask o.mask k')))

/-- When a fault is not a suspension (60_exceptions.md R175): if no element is complete, the fault is
delivered with the state as the instruction found it (CR2 apart, for a page fault). -/
def Obligations.FaultWithNothingDoneChangesNothing : Prop :=
  ∀ (i : Instr) (m : Mode) (s : State) (j : Nat) (e : Exc),
    Admitted m i.form i.operands s → FaultsAt m i.form i.operands s j e →
    (∀ n, isDone m i.form i.operands s j n = false) →
    exec i s = .fault (.raised e (atDelivery e s))

/-- Right to left between elements (60_exceptions.md R162): a fault that is not `#UD` or `#NM` is that of
the lowest-numbered active element whose check faults, every active element below it is complete, and it
is itself still selected. -/
def Obligations.FaultsAreDeliveredRightToLeft : Prop :=
  ∀ (i : Instr) (s t : State) (e : Exc), exec i s = .fault (.raised e t) →
    e = .ud ∨ e = .nm ∨
    ∃ m j, s.mode = some m ∧ FaultsAt m i.form i.operands s j e ∧
      bitAt (t.opmask i.operands.mask) j = true ∧
      ∀ n < j, bitAt (t.opmask i.operands.mask) n = false

/-- Delivery in lieu (60_exceptions.md R167): when complete elements raised traps or interrupts, those are
delivered and not the fault; the saved flags are EFLAGS with RF set to one; memory has the stores of the
complete elements, in ascending order, and no other, exactly their mask bits are cleared, and nothing else
changes (R165). Which events a store raises is the model's data (log 11); CR2 unchanged is log 28 (DEDUCED),
the mask bits at and above KL kept decision D9 (log 19), no byte of the faulting element written decision
D10 (log 20); which elements above `j` are complete is a free value (log 6). -/
def Obligations.PendingEventsAreDeliveredInLieu : Prop :=
  ∀ (i : Instr) (m : Mode) (s : State) (j : Nat) (e : Exc),
    let f := i.form
    let o := i.operands
    let raised := raisedEvents s (elementSize f) (doneLanes s j (activeLanes m f o s))
    Admitted m f o s → FaultsAt m f o s j e → raised ≠ [] →
    ∃ (k' : BitVec 64) (flags : BitVec 32),
      (∀ b, bitAt k' b = (bitAt (s.opmask o.mask) b && !isDone m f o s j b)) ∧
      (∀ b, bitAt flags b = (bitAt s.eflags b || decide (b = 16))) ∧
      exec i s = .fault (.delivered raised flags
        ((s.setMem ((doneElements m f o s j).foldl
          (fun mem n => mem.store (elementLinear m f o s n) (elementSize f)
            (dataElement f.dw (s.vec o.src) n)) s.mem)).setOpmask o.mask k'))

/-- Restart (60_exceptions.md R168): after a fault, with the page rules changed so that every element
still selected may be stored and every register as at delivery, the instruction completes, and every byte
of memory is as one unsuspended execution would have left it, provided no element completed above the
fault overlaps a lower one that was still incomplete. -/
def Obligations.RestartCompletesTheScatter : Prop :=
  ∀ (i : Instr) (m : Mode) (s : State) (j : Nat) (e : Exc) (t : State) (rules : List PageRule),
    let f := i.form
    let o := i.operands
    Admitted m f o s → FaultsAt m f o s j e → exec i s = .fault (.raised e t) →
    Permitted m f o { t with pageRules := rules } →
    (∀ a b, isDone m f o s j a = true → isDone m f o s j b = false → isActive o s b = true →
      b < elementCount f → b < a →
      elementLinear m f o s a + elementSize f ≤ elementLinear m f o s b ∨
        elementLinear m f o s b + elementSize f ≤ elementLinear m f o s a) →
    ∃ u, exec i { t with pageRules := rules } = .next u ∧ u.opmask o.mask = 0#64 ∧
      u.pc = nextPc m o s ∧
      ∀ a, u.mem.read a =
        (storeLanes (elementSize f) s.mem (activeLanes m f o s)).read a

/-! The whole machine. -/

/-- No step, whether it completes or delivers, changes a general register, a vector register, a flag,
MXCSR, a control register other than CR2, or the configuration (10_state.md R20). -/
def Obligations.StepFrame : Prop :=
  ∀ s t : State,
    (step s = .next t ∨ (∃ e, step s = .fault (.raised e t)) ∨
      ∃ events flags, step s = .fault (.delivered events flags t)) →
    t.x = s.x ∧ t.v = s.v ∧ t.eflags = s.eflags ∧ t.mxcsr = s.mxcsr ∧ t.cr0 = s.cr0 ∧ t.cr4 = s.cr4 ∧
    t.xcr0 = s.xcr0 ∧ t.efer = s.efer ∧ t.csL = s.csL ∧ t.csD = s.csD ∧ t.segs = s.segs ∧
    t.cpuid7ebx = s.cpuid7ebx ∧ t.pageRules = s.pageRules ∧ t.notWriteBack = s.notWriteBack ∧
    t.watches = s.watches

/-- A fault or a delivery of an instruction changes memory, the writemask and, for a page fault, CR2
(60_exceptions.md R157, R165), and nothing else: the pc is at the instruction, no flag, no general, vector or
other opmask register, no other control register, nothing of the configuration and nothing pending changed.
That CR2 is unchanged at a delivery in lieu is log 28 (DEDUCED). -/
def Obligations.FaultLeavesThePc : Prop :=
  ∀ (i : Instr) (s t : State),
    ((∃ e, exec i s = .fault (.raised e t)) ∨
      ∃ events flags, exec i s = .fault (.delivered events flags t)) →
    t.pc = s.pc ∧ t.eflags = s.eflags ∧ t.x = s.x ∧ t.v = s.v ∧ t.mxcsr = s.mxcsr ∧ t.cr0 = s.cr0 ∧
    t.cr4 = s.cr4 ∧ t.xcr0 = s.xcr0 ∧ t.efer = s.efer ∧ t.csL = s.csL ∧ t.csD = s.csD ∧
    t.segs = s.segs ∧ t.cpuid7ebx = s.cpuid7ebx ∧ t.pageRules = s.pageRules ∧
    t.notWriteBack = s.notWriteBack ∧ t.watches = s.watches ∧ t.pending = s.pending ∧
    (∀ r : BitVec 3, r ≠ i.operands.mask → t.opmask r = s.opmask r) ∧
    (t.cr2 = s.cr2 ∨ ∃ code la, exec i s = .fault (.raised (.pf code la) t))

/-- k0 is never written, and no step sets a bit of any opmask register (10_state.md R16, R20): the mask
only loses bits, whether a step completes or delivers. -/
def Obligations.MaskBitsAreOnlyCleared : Prop :=
  ∀ s t : State,
    (step s = .next t ∨ (∃ e, step s = .fault (.raised e t)) ∨
      ∃ events flags, step s = .fault (.delivered events flags t)) →
    t.opmask 0#3 = s.opmask 0#3 ∧
    ∀ (r : BitVec 3) (b : Nat), bitAt (t.opmask r) b = true → bitAt (s.opmask r) b = true

/-- The invariant: every step, and every delivery, keeps memory in its canonical form and, in M32, the pc
a 32-bit value (10_state.md R11, R18). -/
def Obligations.StepKeepsStateOk : Prop :=
  ∀ s t : State, StateOk s →
    (step s = .next t ∨ (∃ e, step s = .fault (.raised e t)) ∨
      ∃ events flags, step s = .fault (.delivered events flags t)) →
    StateOk t

/-- The state after reset meets the invariant, is in 64-bit mode with AVX-512 state enabled and CR0.TS
clear, and has nothing pending: the launch state of 70_reset_and_hazards.md R182 (the model's choice:
log 1). -/
def Obligations.ResetIsALaunchState : Prop :=
  StateOk State.reset ∧ State.reset.mode = some .m64 ∧ State.reset.stateEnabled = true ∧
  State.reset.hasAvx512f = true ∧ State.reset.hasAvx512vl = true ∧
  State.reset.taskSwitched = false ∧ State.reset.pending = []

/-! The C intrinsics. -/

/-- The memory effect of an intrinsic is that of the form it stands for, executed to completion with a
mask whose low KL bits are the argument's, or all ones for an intrinsic without `_mask_`
(41_intrinsics.md R143, R144); the base address is the form's base and displacement together. The mode, the
address size and the segment base of the call are the form's: the model's choice (log 37). The execution is one
unsuspended execution (log 40). -/
def Obligations.IntrinsicIsItsForm : Prop :=
  ∀ (c : Intrinsic) (m : Mode) (o : Operands) (s : State) (k : BitVec 16),
    Admitted m c.form o s → Permitted m c.form o s →
    (∀ j < elementCount c.form, bitAt (s.opmask o.mask) j = c.stores k j) →
    ∃ t, exec (c.form.instr o) s = .next t ∧
      t.mem = c.effect ⟨m, addressSize m s.csD o, segBase m s (segmentOf m o)⟩
        (baseValue o s + dispValue c.form o.disp) k (s.vec o.idx) (s.vec o.src) o.scale s.mem
end

