-- ==== Sys2Proof/Laws/Encoding.lean ====
section
/-! SUPPORT. The fields of each byte of the encoding: what the decoder reads from a byte the encoder
wrote, and how the bytes and the register numbers are put together from their fields. -/

namespace Sys2Proof

/-! A byte is its fields. -/

set_option maxRecDepth 20000 in
theorem p0_fields : ∀ p0 : Byte, p0.extractLsb' 7 1 ++ p0.extractLsb' 6 1 ++ p0.extractLsb' 5 1 ++
    p0.extractLsb' 4 1 ++ p0.extractLsb' 2 2 ++ p0.extractLsb' 0 2 = p0 := by decide

set_option maxRecDepth 20000 in
theorem p1_fields : ∀ p1 : Byte, p1.extractLsb' 7 1 ++ p1.extractLsb' 3 4 ++ p1.extractLsb' 2 1 ++
    p1.extractLsb' 0 2 = p1 := by decide

set_option maxRecDepth 20000 in
theorem p2_fields : ∀ p2 : Byte, p2.extractLsb' 7 1 ++ p2.extractLsb' 5 2 ++ p2.extractLsb' 4 1 ++
    p2.extractLsb' 3 1 ++ p2.extractLsb' 0 3 = p2 := by decide

set_option maxRecDepth 20000 in
/-- ModRM and VSIB have the same layout (30_encoding.md R63, R64). -/
theorem modrm_fields : ∀ b : Byte, b.extractLsb' 6 2 ++ b.extractLsb' 3 3 ++ b.extractLsb' 0 3 = b := by
  decide

/-! The fields of the bytes the encoder writes. -/

theorem p0_extract : ∀ a b c d : BitVec 1,
    (a ++ b ++ c ++ d ++ 0#2 ++ 2#2 : Byte).extractLsb' 0 2 = 2#2 ∧
    (a ++ b ++ c ++ d ++ 0#2 ++ 2#2 : Byte).extractLsb' 2 2 = 0#2 ∧
    (a ++ b ++ c ++ d ++ 0#2 ++ 2#2 : Byte).extractLsb' 4 1 = d ∧
    (a ++ b ++ c ++ d ++ 0#2 ++ 2#2 : Byte).extractLsb' 5 1 = c ∧
    (a ++ b ++ c ++ d ++ 0#2 ++ 2#2 : Byte).extractLsb' 6 1 = b ∧
    (a ++ b ++ c ++ d ++ 0#2 ++ 2#2 : Byte).extractLsb' 7 1 = a ∧
    (a ++ b ++ c ++ d ++ 0#2 ++ 2#2 : Byte).extractLsb' 6 2 = a ++ b ∧
    bitAt (a ++ b ++ c ++ d ++ 0#2 ++ 2#2 : Byte) 5 = (c == 1#1) := by decide

theorem p1_extract : ∀ w : BitVec 1,
    (w ++ 15#4 ++ 1#1 ++ 1#2 : Byte).extractLsb' 0 2 = 1#2 ∧
    (w ++ 15#4 ++ 1#1 ++ 1#2 : Byte).extractLsb' 2 1 = 1#1 ∧
    (w ++ 15#4 ++ 1#1 ++ 1#2 : Byte).extractLsb' 3 4 = 15#4 ∧
    (w ++ 15#4 ++ 1#1 ++ 1#2 : Byte).extractLsb' 7 1 = w := by decide

theorem p2_extract : ∀ (ll : BitVec 2) (v : BitVec 1) (aaa : BitVec 3),
    (0#1 ++ ll ++ 0#1 ++ v ++ aaa : Byte).extractLsb' 7 1 = 0#1 ∧
    (0#1 ++ ll ++ 0#1 ++ v ++ aaa : Byte).extractLsb' 5 2 = ll ∧
    (0#1 ++ ll ++ 0#1 ++ v ++ aaa : Byte).extractLsb' 4 1 = 0#1 ∧
    (0#1 ++ ll ++ 0#1 ++ v ++ aaa : Byte).extractLsb' 3 1 = v ∧
    (0#1 ++ ll ++ 0#1 ++ v ++ aaa : Byte).extractLsb' 0 3 = aaa := by decide

set_option maxRecDepth 20000 in
theorem modrm_extract : ∀ (a : BitVec 2) (b c : BitVec 3),
    (a ++ b ++ c : Byte).extractLsb' 6 2 = a ∧ (a ++ b ++ c : Byte).extractLsb' 3 3 = b ∧
    (a ++ b ++ c : Byte).extractLsb' 0 3 = c := by decide

/-! Register numbers and displacements. -/

/-- A five-bit register number from its stored bits (30_encoding.md R71, R73). -/
theorem reg5_assemble : ∀ r : BitVec 5, (~~~(invBit r 4)) ++ (~~~(invBit r 3)) ++ r.extractLsb' 0 3 = r := by
  decide

/-- The stored bits of a five-bit register number (30_encoding.md R58, R60). -/
theorem reg5_stored : ∀ (a b : BitVec 1) (c : BitVec 3),
    invBit ((~~~a) ++ (~~~b) ++ c : BitVec 5) 4 = a ∧ invBit ((~~~a) ++ (~~~b) ++ c : BitVec 5) 3 = b ∧
    ((~~~a) ++ (~~~b) ++ c : BitVec 5).extractLsb' 0 3 = c := by decide

/-- A base register number from its stored bits (30_encoding.md R72). -/
theorem reg4_assemble : ∀ r : BitVec 4, (~~~(invBit r 3)) ++ r.extractLsb' 0 3 = r := by decide

/-- The stored bits of a base register number (30_encoding.md R58, R64). -/
theorem reg4_stored : ∀ (a : BitVec 1) (c : BitVec 3),
    invBit ((~~~a) ++ c : BitVec 4) 3 = a ∧ ((~~~a) ++ c : BitVec 4).extractLsb' 0 3 = c := by decide

/-- The four bytes of a displacement, put together again (30_encoding.md R65). -/
theorem disp32_assemble (d : BitVec 32) :
    disp32Of (d.extractLsb' 0 8) (d.extractLsb' 8 8) (d.extractLsb' 16 8) (d.extractLsb' 24 8) = d := by
  apply BitVec.eq_of_getLsbD_eq
  intro i hi
  simp only [disp32Of, BitVec.getLsbD_append, BitVec.getLsbD_extractLsb']
  by_cases h0 : i < 8
  · simp [h0]
  by_cases h1 : i < 16
  · have e : 8 + (i - 8) = i := by omega
    have : i - 8 < 8 := by omega
    simp [h0, this, e]
  by_cases h2 : i < 24
  · have e : 16 + (i - 8 - 8) = i := by omega
    have a1 : ¬ i - 8 < 8 := by omega
    have a2 : i - 8 - 8 < 8 := by omega
    simp [h0, a1, a2, e]
  · have e : 24 + (i - 8 - 8 - 8) = i := by omega
    have a1 : ¬ i - 8 < 8 := by omega
    have a2 : ¬ i - 8 - 8 < 8 := by omega
    have a3 : i - 8 - 8 - 8 < 8 := by omega
    simp [h0, a1, a2, a3, e]

/-- The bytes of a displacement put together (30_encoding.md R65). -/
theorem disp32_stored (b0 b1 b2 b3 : Byte) :
    (disp32Of b0 b1 b2 b3).extractLsb' 0 8 = b0 ∧ (disp32Of b0 b1 b2 b3).extractLsb' 8 8 = b1 ∧
    (disp32Of b0 b1 b2 b3).extractLsb' 16 8 = b2 ∧ (disp32Of b0 b1 b2 b3).extractLsb' 24 8 = b3 := by
  refine ⟨?_, ?_, ?_, ?_⟩ <;> apply BitVec.eq_of_getLsbD_eq <;> intro i hi <;>
    simp only [disp32Of, BitVec.getLsbD_append, BitVec.getLsbD_extractLsb']
  · simp [hi]
  · have a1 : ¬ 8 + i < 8 := by omega
    simp [hi, a1]
  · have a1 : ¬ 16 + i < 8 := by omega
    have a2 : ¬ 16 + i - 8 < 8 := by omega
    have a3 : 16 + i - 8 - 8 < 8 := by omega
    have e : 16 + i - 8 - 8 = i := by omega
    simp [hi, a1, a2, e]
  · have a1 : ¬ 24 + i < 8 := by omega
    have a2 : ¬ 24 + i - 8 < 8 := by omega
    have a3 : ¬ 24 + i - 8 - 8 < 8 := by omega
    have e : 24 + i - 8 - 8 - 8 = i := by omega
    simp [hi, a1, a2, a3, e]

/-! Small tables, both ways. -/

@[simp] theorem classifyByte_legacyByte (m : Mode) (p : LegacyPrefix) :
    classifyByte m (legacyByte p) = .legacy p := by
  cases p with
  | override seg => cases m <;> cases seg <;> decide
  | addressSize => cases m <;> decide

@[simp] theorem classifyByte_evex (m : Mode) : classifyByte m 0x62#8 = .other := by
  cases m <;> decide

/-- A byte that is read as a legacy prefix is that prefix's byte (30_encoding.md R56). -/
theorem legacyByte_of_classifyByte {m : Mode} {b : Byte} {p : LegacyPrefix}
    (h : classifyByte m b = .legacy p) : legacyByte p = b := by
  unfold classifyByte at h
  repeat' split at h
  all_goals first
    | (cases h; simp_all [legacyByte])
    | cases h

@[simp] theorem scaleOf_ssBits (sc : Scale) : scaleOf (ssBits sc) = sc := by cases sc <;> decide

@[simp] theorem ssBits_scaleOf (ss : BitVec 2) : ssBits (scaleOf ss) = ss := by
  revert ss; decide

@[simp] theorem vecLenOf_llBits (vl : VecLen) : vecLenOf (llBits vl) = vl := by cases vl <;> decide

theorem llBits_vecLenOf : ∀ ll : BitVec 2, ll ≠ 3#2 → llBits (vecLenOf ll) = ll := by decide

theorem llBits_ne (vl : VecLen) : llBits vl ≠ 3#2 := by cases vl <;> decide

/-- The opcode byte is `A2` or `A3` (30_encoding.md R62). -/
theorem opcodeByte_cases (iw : IndexWidth) : opcodeByte iw = 0xA2#8 ∨ opcodeByte iw = 0xA3#8 := by
  cases iw <;> simp [opcodeByte]

/-- The length of the encoded displacement (30_encoding.md R80). -/
@[simp] theorem encodeDisp_length (d : Disp) : (encodeDisp d).length = d.bytes := by
  cases d <;> rfl

/-- The decoder collects the legacy prefixes of an encoding (30_encoding.md R95 step 1). -/
theorem decodeFrom_legacy (m : Mode) (ps seen : List LegacyPrefix) (bad : Bool) (rest : List Byte) :
    decodeFrom m seen bad (ps.map legacyByte ++ rest) = decodeFrom m (seen ++ ps) bad rest := by
  induction ps generalizing seen with
  | nil => simp
  | cons p ps ih => simp [decodeFrom, ih]

/-- The decoder passes over the bytes before `62`, and remembers whether one of them is forbidden
(30_encoding.md R86, R95 step 1). -/
theorem decodeFrom_before (m : Mode) (bs : List Byte) (h : ∀ b ∈ bs, classifyByte m b ≠ .other)
    (seen : List LegacyPrefix) (bad : Bool) (rest : List Byte) :
    ∃ seen' bad', decodeFrom m seen bad (bs ++ rest) = decodeFrom m seen' bad' rest ∧
      (bad' = true ↔ bad = true ∨ ∃ b ∈ bs, classifyByte m b = .forbidden) := by
  induction bs generalizing seen bad with
  | nil => exact ⟨seen, bad, rfl, by simp⟩
  | cons b bs ih =>
    have hb := h b List.mem_cons_self
    have ih := ih (fun x hx => h x (List.mem_cons_of_mem _ hx))
    cases hc : classifyByte m b with
    | other => exact absurd hc hb
    | legacy p =>
      obtain ⟨seen', bad', h1, h2⟩ := ih (seen ++ [p]) bad
      exact ⟨seen', bad', by simpa [decodeFrom, hc] using h1, by simp [h2, hc]⟩
    | forbidden =>
      obtain ⟨seen', bad', h1, h2⟩ := ih seen true
      exact ⟨seen', bad', by simpa [decodeFrom, hc] using h1, by simp [h2, hc]⟩

/-- The bytes from `62` on end before the instruction does: whether they show the family. -/
theorem decodeEvex_needMore {m : Mode} {seen : List LegacyPrefix} {bad shown : Bool} {bytes : List Byte}
    (h : decodeEvex m seen bad bytes = .needMore shown) :
    (shown = false ∧ bytes.length < 4) ∨
    (shown = true ∧ ∃ p0 p1 p2 op rest, bytes = p0 :: p1 :: p2 :: op :: rest ∧
      inFamily p0 p1 op = true ∧ (m = .m32 → p0.extractLsb' 6 2 = 3#2)) := by
  rcases bytes with _ | ⟨p0, _ | ⟨p1, _ | ⟨p2, _ | ⟨op, rest⟩⟩⟩⟩ <;> simp only [decodeEvex] at h
  · cases h; exact .inl ⟨rfl, by decide⟩
  all_goals
    split at h
    · cases h
  · cases h; exact .inl ⟨rfl, by simp⟩
  · cases h; exact .inl ⟨rfl, by simp⟩
  · cases h; exact .inl ⟨rfl, by simp⟩
  · next htop =>
    split at h
    · cases h
    · next hf =>
      refine .inr ⟨?_, p0, p1, p2, op, rest, rfl, by simpa using hf, fun hm => by simpa [hm] using htop⟩
      split at h
      · cases h; rfl
      · split at h
        · cases h
        · split at h
          · cases h; rfl
          · unfold decodeTail at h
            simp only at h
            repeat' split at h
            all_goals cases h
            all_goals rfl

/-- Bytes that end before the instruction does and that the decoder says show the family do show it. -/
theorem decodeFrom_needMore_true {m : Mode} (bytes : List Byte) (seen : List LegacyPrefix) (bad : Bool)
    (h : decodeFrom m seen bad bytes = .needMore true) :
    ∃ before p0 p1 p2 op rest, bytes = before ++ [0x62#8, p0, p1, p2, op] ++ rest ∧
      (∀ b ∈ before, classifyByte m b ≠ .other) ∧ inFamily p0 p1 op = true ∧
      (m = .m32 → p0.extractLsb' 6 2 = 3#2) := by
  induction bytes generalizing seen bad with
  | nil => cases h
  | cons b bytes ih =>
    simp only [decodeFrom] at h
    split at h
    · next p hp =>
      obtain ⟨before, p0, p1, p2, op, rest, rfl, hb, hf⟩ := ih _ _ h
      exact ⟨b :: before, p0, p1, p2, op, rest, rfl, by simpa [hp] using hb, hf⟩
    · next hp =>
      obtain ⟨before, p0, p1, p2, op, rest, rfl, hb, hf⟩ := ih _ _ h
      exact ⟨b :: before, p0, p1, p2, op, rest, rfl, by simpa [hp] using hb, hf⟩
    · split at h
      · next hb =>
        subst hb
        rcases decodeEvex_needMore h with ⟨hs, -⟩ | ⟨-, p0, p1, p2, op, rest, rfl, hf⟩
        · cases hs
        · exact ⟨[], p0, p1, p2, op, rest, rfl, by simp, hf⟩
      · cases h

end Sys2Proof
end

