-- ==== Sys2Proof/Laws/Memory.lean ====
section
/-! SUPPORT. Memory: a read after a write, the canonical form, lists of byte writes. -/

namespace Sys2Proof.Machine

/-- A read after a write: the byte written there, every other byte as before. -/
theorem Memory.read_write (m : Memory) (a a' : Nat) (b : Byte) :
    (Memory.write m a b).read a' = if a' = a then some b else m.read a' := by
  induction m with
  | nil => simp [Memory.write, Memory.read]
  | cons c m ih =>
    obtain ⟨a0, b0⟩ := c
    simp only [Memory.write]
    split
    · by_cases h : a' = a <;> simp [Memory.read, h]
    · split
      · next _ h => subst h; by_cases h : a' = a <;> simp [Memory.read, h]
      · next _ h =>
        by_cases h0 : a' = a0
        · subst h0; simp [Memory.read, Ne.symm h]
        · simp [Memory.read, h0, ih]

@[simp] theorem Memory.writeAll_nil (m : Memory) : m.writeAll [] = m := rfl

@[simp] theorem Memory.writeAll_cons (m : Memory) (w : ByteWrite) (ws : List ByteWrite) :
    m.writeAll (w :: ws) = (Memory.write m w.1 w.2).writeAll ws := rfl

theorem Memory.writeAll_append (m : Memory) (ws ws' : List ByteWrite) :
    m.writeAll (ws ++ ws') = (m.writeAll ws).writeAll ws' := by
  simp [Memory.writeAll, List.foldl_append]

/-- A byte after a list of writes: the last write to its address, else the old byte. -/
theorem Memory.read_writeAll (m : Memory) (ws : List ByteWrite) (a : Nat) :
    (m.writeAll ws).read a =
      (((ws.filter (fun w => w.1 = a)).getLast?).map Prod.snd).or (m.read a) := by
  induction ws generalizing m with
  | nil => simp
  | cons w ws ih =>
    rw [Memory.writeAll_cons, ih, Memory.read_write]
    by_cases h : w.1 = a
    · simp only [h, List.filter_cons, decide_true, if_true, List.getLast?_cons]
      cases (ws.filter fun w => decide (w.1 = a)).getLast? <;> simp
    · simp [h, Ne.symm h]

/-- Writes elsewhere leave a byte alone. -/
theorem Memory.read_writeAll_of_not_mem (m : Memory) (ws : List ByteWrite) (a : Nat)
    (h : ∀ w ∈ ws, w.1 ≠ a) : (m.writeAll ws).read a = m.read a := by
  have : ws.filter (fun w => decide (w.1 = a)) = [] := by simpa [List.filter_eq_nil_iff] using h
  simp [Memory.read_writeAll, this]

theorem Memory.wf_iff (m : Memory) :
    m.wf = true ↔ m.Pairwise (fun c d => c.1 < d.1) ∧ ∀ c ∈ m, c.1 < 2 ^ 64 := by
  simp [Memory.wf]

/-- Every address of memory after a write is the written one or an old one. -/
theorem Memory.mem_write {m : Memory} {a : Nat} {b : Byte} {c : Host.Cell}
    (h : c ∈ Memory.write m a b) : c = (a, b) ∨ c ∈ m := by
  induction m with
  | nil => simpa [Memory.write] using h
  | cons d m ih =>
    simp only [Memory.write] at h
    split at h
    · simpa using h
    · split at h
      · rcases List.mem_cons.1 h with h | h
        · exact .inl h
        · exact .inr (List.mem_cons_of_mem _ h)
      · rcases List.mem_cons.1 h with h | h
        · exact .inr (h ▸ List.mem_cons_self)
        · exact (ih h).imp id (List.mem_cons_of_mem _)

/-- A write keeps the canonical form. -/
theorem Memory.wf_write {m : Memory} {a : Nat} (b : Byte) (h : m.wf = true) (ha : a < 2 ^ 64) :
    (Memory.write m a b).wf = true := by
  rw [Memory.wf_iff] at h ⊢
  refine ⟨?_, fun c hc => ?_⟩
  · obtain ⟨hp, -⟩ := h
    induction m with
    | nil => simp [Memory.write]
    | cons d m ih =>
      rw [List.pairwise_cons] at hp
      simp only [Memory.write]
      split
      · next hlt =>
        refine List.pairwise_cons.2 ⟨fun e he => ?_, List.pairwise_cons.2 hp⟩
        rcases List.mem_cons.1 he with rfl | he
        · exact hlt
        · exact lt_trans hlt (hp.1 e he)
      · split
        · next _ heq => exact List.pairwise_cons.2 ⟨fun e he => heq ▸ hp.1 e he, hp.2⟩
        · next h1 h2 =>
          refine List.pairwise_cons.2 ⟨fun e he => ?_, ih hp.2⟩
          rcases Memory.mem_write he with rfl | he
          · show d.1 < a; omega
          · exact hp.1 e he
  · rcases Memory.mem_write hc with rfl | hc
    · exact ha
    · exact h.2 c hc

/-- A list of writes keeps the canonical form. -/
theorem Memory.wf_writeAll {m : Memory} {ws : List ByteWrite} (h : m.wf = true)
    (hw : ∀ w ∈ ws, w.1 < 2 ^ 64) : (m.writeAll ws).wf = true := by
  induction ws generalizing m with
  | nil => exact h
  | cons w ws ih =>
    exact ih (Memory.wf_write w.2 h (hw w List.mem_cons_self))
      (fun w' hw' => hw w' (List.mem_cons_of_mem _ hw'))

/-- A read finds an entry of memory in canonical form. -/
theorem Memory.read_eq_some_iff {m : Memory} (h : m.wf = true) (a : Nat) (b : Byte) :
    m.read a = some b ↔ (a, b) ∈ m := by
  have hp := ((Memory.wf_iff m).1 h).1
  clear h
  induction m with
  | nil => simp [Memory.read]
  | cons c m ih =>
    obtain ⟨a0, b0⟩ := c
    rw [List.pairwise_cons] at hp
    by_cases h : a = a0
    · subst h
      simp only [Memory.read, if_true, Option.some.injEq, List.mem_cons, Prod.mk.injEq, true_and]
      refine ⟨fun e => .inl e.symm, fun e => e.elim Eq.symm fun hm => ?_⟩
      exact absurd (hp.1 _ hm) (lt_irrefl _)
    · simp [Memory.read, h, ih hp.2]

/-- Memories in canonical form that read the same are equal. -/
theorem Memory.ext_read {m m' : Memory} (h : m.wf = true) (h' : m'.wf = true)
    (hr : ∀ a, m.read a = m'.read a) : m = m' := by
  have hmem : ∀ c : Host.Cell, c ∈ m ↔ c ∈ m' := fun ⟨a, b⟩ => by
    rw [← Memory.read_eq_some_iff h, ← Memory.read_eq_some_iff h', hr]
  have hp := ((Memory.wf_iff m).1 h).1
  have hp' := ((Memory.wf_iff m').1 h').1
  have nd : m.Nodup := hp.imp fun hlt e => absurd (e ▸ hlt) (lt_irrefl _)
  have nd' : m'.Nodup := hp'.imp fun hlt e => absurd (e ▸ hlt) (lt_irrefl _)
  refine List.Perm.eq_of_pairwise (le := fun c d : Host.Cell => c.1 < d.1) ?_ hp hp'
    ((List.perm_ext_iff_of_nodup nd nd').2 hmem)
  intro c d _ _ h1 h2
  exact absurd (lt_trans h1 h2) (lt_irrefl _)

/-- The writes of an element's store: address `a + i` gets byte `i` (20_memory.md R31). -/
theorem mem_elementBytes {a n : Nat} {v : Word} {w : ByteWrite} :
    w ∈ elementBytes a n v ↔ ∃ i < n, w = (a + i, v.extractLsb' (8 * i) 8) := by
  simp only [elementBytes, List.mem_map, List.mem_range]
  exact ⟨fun ⟨i, hi, h⟩ => ⟨i, hi, h.symm⟩, fun ⟨i, hi, h⟩ => ⟨i, hi, h.symm⟩⟩

/-- A store's byte reads back. -/
theorem Memory.read_store (m : Memory) (a n : Nat) (v : Word) (a' : Nat) :
    (m.store a n v).read a' =
      if a ≤ a' ∧ a' < a + n then some (v.extractLsb' (8 * (a' - a)) 8) else m.read a' := by
  unfold Memory.store
  induction n with
  | zero =>
    simp [elementBytes]
  | succ n ih =>
    have : elementBytes a (n + 1) v = elementBytes a n v ++ [(a + n, v.extractLsb' (8 * n) 8)] := by
      simp [elementBytes, List.range_succ]
    rw [this, Memory.writeAll_append, Memory.writeAll_cons, Memory.writeAll_nil, Memory.read_write, ih]
    by_cases h : a' = a + n
    · subst h; simp
    · have : (a ≤ a' ∧ a' < a + (n + 1)) ↔ (a ≤ a' ∧ a' < a + n) := by omega
      simp [h, this]

/-- A store keeps the canonical form. -/
theorem Memory.wf_store {m : Memory} {a n : Nat} (v : Word) (h : m.wf = true) (ha : a + n ≤ 2 ^ 64) :
    (m.store a n v).wf = true := by
  refine Memory.wf_writeAll h fun w hw => ?_
  obtain ⟨i, hi, rfl⟩ := mem_elementBytes.1 hw
  show a + i < 2 ^ 64
  omega

end Sys2Proof.Machine
end

