-- ==== Sys2Proof/Laws/PerInstr.lean ====
section
/-! SUPPORT. One statement about every instruction as syntax, one lemma per constructor. -/

namespace Sys2Proof.Laws.EncodedLength

/-- The encoding of an instruction has the length of 30_encoding.md R80, and the byte `62` stands
right after the legacy prefixes (R55). -/
def Statement (i : Instr) : Prop :=
  (encode i).length = ilen i.operands ∧ (encode i)[i.operands.legacy.length]? = some 0x62#8

theorem of_operands (i : Instr) : Statement i := by
  constructor
  · simp [encode, encodeCore, ilen]; omega
  · simp [encode, encodeCore]

theorem vscatterdps128 (o : Operands) : Statement (.vscatterdps128 o) := of_operands _
theorem vscatterdps256 (o : Operands) : Statement (.vscatterdps256 o) := of_operands _
theorem vscatterdps512 (o : Operands) : Statement (.vscatterdps512 o) := of_operands _
theorem vscatterdpd128 (o : Operands) : Statement (.vscatterdpd128 o) := of_operands _
theorem vscatterdpd256 (o : Operands) : Statement (.vscatterdpd256 o) := of_operands _
theorem vscatterdpd512 (o : Operands) : Statement (.vscatterdpd512 o) := of_operands _
theorem vscatterqps128 (o : Operands) : Statement (.vscatterqps128 o) := of_operands _
theorem vscatterqps256 (o : Operands) : Statement (.vscatterqps256 o) := of_operands _
theorem vscatterqps512 (o : Operands) : Statement (.vscatterqps512 o) := of_operands _
theorem vscatterqpd128 (o : Operands) : Statement (.vscatterqpd128 o) := of_operands _
theorem vscatterqpd256 (o : Operands) : Statement (.vscatterqpd256 o) := of_operands _
theorem vscatterqpd512 (o : Operands) : Statement (.vscatterqpd512 o) := of_operands _

end Sys2Proof.Laws.EncodedLength
end

