-- ==== Sys2Proof/Laws/State.lean ====
section
/-! SUPPORT. What each state update does to each field and each accessor. -/

namespace Sys2Proof.Machine

variable (s : State)

@[simp] theorem State.setOpmask_x (m : BitVec 3) (w : BitVec Config.maxKL) : (s.setOpmask m w).x = s.x := rfl
@[simp] theorem State.setOpmask_v (m : BitVec 3) (w : BitVec Config.maxKL) : (s.setOpmask m w).v = s.v := rfl
@[simp] theorem State.setOpmask_k (m : BitVec 3) (w : BitVec Config.maxKL) : (s.setOpmask m w).k = s.k.set m.toNat w m.isLt := rfl
@[simp] theorem State.setOpmask_pc (m : BitVec 3) (w : BitVec Config.maxKL) : (s.setOpmask m w).pc = s.pc := rfl
@[simp] theorem State.setOpmask_eflags (m : BitVec 3) (w : BitVec Config.maxKL) : (s.setOpmask m w).eflags = s.eflags := rfl
@[simp] theorem State.setOpmask_mxcsr (m : BitVec 3) (w : BitVec Config.maxKL) : (s.setOpmask m w).mxcsr = s.mxcsr := rfl
@[simp] theorem State.setOpmask_cr0 (m : BitVec 3) (w : BitVec Config.maxKL) : (s.setOpmask m w).cr0 = s.cr0 := rfl
@[simp] theorem State.setOpmask_cr2 (m : BitVec 3) (w : BitVec Config.maxKL) : (s.setOpmask m w).cr2 = s.cr2 := rfl
@[simp] theorem State.setOpmask_cr4 (m : BitVec 3) (w : BitVec Config.maxKL) : (s.setOpmask m w).cr4 = s.cr4 := rfl
@[simp] theorem State.setOpmask_xcr0 (m : BitVec 3) (w : BitVec Config.maxKL) : (s.setOpmask m w).xcr0 = s.xcr0 := rfl
@[simp] theorem State.setOpmask_efer (m : BitVec 3) (w : BitVec Config.maxKL) : (s.setOpmask m w).efer = s.efer := rfl
@[simp] theorem State.setOpmask_csL (m : BitVec 3) (w : BitVec Config.maxKL) : (s.setOpmask m w).csL = s.csL := rfl
@[simp] theorem State.setOpmask_csD (m : BitVec 3) (w : BitVec Config.maxKL) : (s.setOpmask m w).csD = s.csD := rfl
@[simp] theorem State.setOpmask_segs (m : BitVec 3) (w : BitVec Config.maxKL) : (s.setOpmask m w).segs = s.segs := rfl
@[simp] theorem State.setOpmask_cpuid7ebx (m : BitVec 3) (w : BitVec Config.maxKL) : (s.setOpmask m w).cpuid7ebx = s.cpuid7ebx := rfl
@[simp] theorem State.setOpmask_pageRules (m : BitVec 3) (w : BitVec Config.maxKL) : (s.setOpmask m w).pageRules = s.pageRules := rfl
@[simp] theorem State.setOpmask_notWriteBack (m : BitVec 3) (w : BitVec Config.maxKL) : (s.setOpmask m w).notWriteBack = s.notWriteBack := rfl
@[simp] theorem State.setOpmask_watches (m : BitVec 3) (w : BitVec Config.maxKL) : (s.setOpmask m w).watches = s.watches := rfl
@[simp] theorem State.setOpmask_pending (m : BitVec 3) (w : BitVec Config.maxKL) : (s.setOpmask m w).pending = s.pending := rfl
@[simp] theorem State.setOpmask_mem (m : BitVec 3) (w : BitVec Config.maxKL) : (s.setOpmask m w).mem = s.mem := rfl

@[simp] theorem State.setPc_x (a : Word) : (s.setPc a).x = s.x := rfl
@[simp] theorem State.setPc_v (a : Word) : (s.setPc a).v = s.v := rfl
@[simp] theorem State.setPc_k (a : Word) : (s.setPc a).k = s.k := rfl
@[simp] theorem State.setPc_pc (a : Word) : (s.setPc a).pc = a := rfl
@[simp] theorem State.setPc_eflags (a : Word) : (s.setPc a).eflags = s.eflags := rfl
@[simp] theorem State.setPc_mxcsr (a : Word) : (s.setPc a).mxcsr = s.mxcsr := rfl
@[simp] theorem State.setPc_cr0 (a : Word) : (s.setPc a).cr0 = s.cr0 := rfl
@[simp] theorem State.setPc_cr2 (a : Word) : (s.setPc a).cr2 = s.cr2 := rfl
@[simp] theorem State.setPc_cr4 (a : Word) : (s.setPc a).cr4 = s.cr4 := rfl
@[simp] theorem State.setPc_xcr0 (a : Word) : (s.setPc a).xcr0 = s.xcr0 := rfl
@[simp] theorem State.setPc_efer (a : Word) : (s.setPc a).efer = s.efer := rfl
@[simp] theorem State.setPc_csL (a : Word) : (s.setPc a).csL = s.csL := rfl
@[simp] theorem State.setPc_csD (a : Word) : (s.setPc a).csD = s.csD := rfl
@[simp] theorem State.setPc_segs (a : Word) : (s.setPc a).segs = s.segs := rfl
@[simp] theorem State.setPc_cpuid7ebx (a : Word) : (s.setPc a).cpuid7ebx = s.cpuid7ebx := rfl
@[simp] theorem State.setPc_pageRules (a : Word) : (s.setPc a).pageRules = s.pageRules := rfl
@[simp] theorem State.setPc_notWriteBack (a : Word) : (s.setPc a).notWriteBack = s.notWriteBack := rfl
@[simp] theorem State.setPc_watches (a : Word) : (s.setPc a).watches = s.watches := rfl
@[simp] theorem State.setPc_pending (a : Word) : (s.setPc a).pending = s.pending := rfl
@[simp] theorem State.setPc_mem (a : Word) : (s.setPc a).mem = s.mem := rfl

@[simp] theorem State.setMem_x (mem : Memory) : (s.setMem mem).x = s.x := rfl
@[simp] theorem State.setMem_v (mem : Memory) : (s.setMem mem).v = s.v := rfl
@[simp] theorem State.setMem_k (mem : Memory) : (s.setMem mem).k = s.k := rfl
@[simp] theorem State.setMem_pc (mem : Memory) : (s.setMem mem).pc = s.pc := rfl
@[simp] theorem State.setMem_eflags (mem : Memory) : (s.setMem mem).eflags = s.eflags := rfl
@[simp] theorem State.setMem_mxcsr (mem : Memory) : (s.setMem mem).mxcsr = s.mxcsr := rfl
@[simp] theorem State.setMem_cr0 (mem : Memory) : (s.setMem mem).cr0 = s.cr0 := rfl
@[simp] theorem State.setMem_cr2 (mem : Memory) : (s.setMem mem).cr2 = s.cr2 := rfl
@[simp] theorem State.setMem_cr4 (mem : Memory) : (s.setMem mem).cr4 = s.cr4 := rfl
@[simp] theorem State.setMem_xcr0 (mem : Memory) : (s.setMem mem).xcr0 = s.xcr0 := rfl
@[simp] theorem State.setMem_efer (mem : Memory) : (s.setMem mem).efer = s.efer := rfl
@[simp] theorem State.setMem_csL (mem : Memory) : (s.setMem mem).csL = s.csL := rfl
@[simp] theorem State.setMem_csD (mem : Memory) : (s.setMem mem).csD = s.csD := rfl
@[simp] theorem State.setMem_segs (mem : Memory) : (s.setMem mem).segs = s.segs := rfl
@[simp] theorem State.setMem_cpuid7ebx (mem : Memory) : (s.setMem mem).cpuid7ebx = s.cpuid7ebx := rfl
@[simp] theorem State.setMem_pageRules (mem : Memory) : (s.setMem mem).pageRules = s.pageRules := rfl
@[simp] theorem State.setMem_notWriteBack (mem : Memory) : (s.setMem mem).notWriteBack = s.notWriteBack := rfl
@[simp] theorem State.setMem_watches (mem : Memory) : (s.setMem mem).watches = s.watches := rfl
@[simp] theorem State.setMem_pending (mem : Memory) : (s.setMem mem).pending = s.pending := rfl
@[simp] theorem State.setMem_mem (mem : Memory) : (s.setMem mem).mem = mem := rfl

@[simp] theorem State.setPending_x (es : List Event) : (s.setPending es).x = s.x := rfl
@[simp] theorem State.setPending_v (es : List Event) : (s.setPending es).v = s.v := rfl
@[simp] theorem State.setPending_k (es : List Event) : (s.setPending es).k = s.k := rfl
@[simp] theorem State.setPending_pc (es : List Event) : (s.setPending es).pc = s.pc := rfl
@[simp] theorem State.setPending_eflags (es : List Event) : (s.setPending es).eflags = s.eflags := rfl
@[simp] theorem State.setPending_mxcsr (es : List Event) : (s.setPending es).mxcsr = s.mxcsr := rfl
@[simp] theorem State.setPending_cr0 (es : List Event) : (s.setPending es).cr0 = s.cr0 := rfl
@[simp] theorem State.setPending_cr2 (es : List Event) : (s.setPending es).cr2 = s.cr2 := rfl
@[simp] theorem State.setPending_cr4 (es : List Event) : (s.setPending es).cr4 = s.cr4 := rfl
@[simp] theorem State.setPending_xcr0 (es : List Event) : (s.setPending es).xcr0 = s.xcr0 := rfl
@[simp] theorem State.setPending_efer (es : List Event) : (s.setPending es).efer = s.efer := rfl
@[simp] theorem State.setPending_csL (es : List Event) : (s.setPending es).csL = s.csL := rfl
@[simp] theorem State.setPending_csD (es : List Event) : (s.setPending es).csD = s.csD := rfl
@[simp] theorem State.setPending_segs (es : List Event) : (s.setPending es).segs = s.segs := rfl
@[simp] theorem State.setPending_cpuid7ebx (es : List Event) : (s.setPending es).cpuid7ebx = s.cpuid7ebx := rfl
@[simp] theorem State.setPending_pageRules (es : List Event) : (s.setPending es).pageRules = s.pageRules := rfl
@[simp] theorem State.setPending_notWriteBack (es : List Event) : (s.setPending es).notWriteBack = s.notWriteBack := rfl
@[simp] theorem State.setPending_watches (es : List Event) : (s.setPending es).watches = s.watches := rfl
@[simp] theorem State.setPending_pending (es : List Event) : (s.setPending es).pending = es := rfl
@[simp] theorem State.setPending_mem (es : List Event) : (s.setPending es).mem = s.mem := rfl

@[simp] theorem State.setCr2_x (la : Word) : (s.setCr2 la).x = s.x := rfl
@[simp] theorem State.setCr2_v (la : Word) : (s.setCr2 la).v = s.v := rfl
@[simp] theorem State.setCr2_k (la : Word) : (s.setCr2 la).k = s.k := rfl
@[simp] theorem State.setCr2_pc (la : Word) : (s.setCr2 la).pc = s.pc := rfl
@[simp] theorem State.setCr2_eflags (la : Word) : (s.setCr2 la).eflags = s.eflags := rfl
@[simp] theorem State.setCr2_mxcsr (la : Word) : (s.setCr2 la).mxcsr = s.mxcsr := rfl
@[simp] theorem State.setCr2_cr0 (la : Word) : (s.setCr2 la).cr0 = s.cr0 := rfl
@[simp] theorem State.setCr2_cr2 (la : Word) : (s.setCr2 la).cr2 = la := rfl
@[simp] theorem State.setCr2_cr4 (la : Word) : (s.setCr2 la).cr4 = s.cr4 := rfl
@[simp] theorem State.setCr2_xcr0 (la : Word) : (s.setCr2 la).xcr0 = s.xcr0 := rfl
@[simp] theorem State.setCr2_efer (la : Word) : (s.setCr2 la).efer = s.efer := rfl
@[simp] theorem State.setCr2_csL (la : Word) : (s.setCr2 la).csL = s.csL := rfl
@[simp] theorem State.setCr2_csD (la : Word) : (s.setCr2 la).csD = s.csD := rfl
@[simp] theorem State.setCr2_segs (la : Word) : (s.setCr2 la).segs = s.segs := rfl
@[simp] theorem State.setCr2_cpuid7ebx (la : Word) : (s.setCr2 la).cpuid7ebx = s.cpuid7ebx := rfl
@[simp] theorem State.setCr2_pageRules (la : Word) : (s.setCr2 la).pageRules = s.pageRules := rfl
@[simp] theorem State.setCr2_notWriteBack (la : Word) : (s.setCr2 la).notWriteBack = s.notWriteBack := rfl
@[simp] theorem State.setCr2_watches (la : Word) : (s.setCr2 la).watches = s.watches := rfl
@[simp] theorem State.setCr2_pending (la : Word) : (s.setCr2 la).pending = s.pending := rfl
@[simp] theorem State.setCr2_mem (la : Word) : (s.setCr2 la).mem = s.mem := rfl

@[simp] theorem State.gpr_setOpmask (m : BitVec 3) (w : BitVec Config.maxKL) (r : BitVec 4) : (s.setOpmask m w).gpr r = s.gpr r := rfl
@[simp] theorem State.vec_setOpmask (m : BitVec 3) (w : BitVec Config.maxKL) (i : BitVec 5) : (s.setOpmask m w).vec i = s.vec i := rfl
@[simp] theorem State.mode_setOpmask (m : BitVec 3) (w : BitVec Config.maxKL) : (s.setOpmask m w).mode = s.mode := rfl
@[simp] theorem State.stateEnabled_setOpmask (m : BitVec 3) (w : BitVec Config.maxKL) : (s.setOpmask m w).stateEnabled = s.stateEnabled := rfl
@[simp] theorem State.taskSwitched_setOpmask (m : BitVec 3) (w : BitVec Config.maxKL) : (s.setOpmask m w).taskSwitched = s.taskSwitched := rfl
@[simp] theorem State.hasAvx512f_setOpmask (m : BitVec 3) (w : BitVec Config.maxKL) : (s.setOpmask m w).hasAvx512f = s.hasAvx512f := rfl
@[simp] theorem State.hasAvx512vl_setOpmask (m : BitVec 3) (w : BitVec Config.maxKL) : (s.setOpmask m w).hasAvx512vl = s.hasAvx512vl := rfl
@[simp] theorem State.segReg_setOpmask (m : BitVec 3) (w : BitVec Config.maxKL) (seg : Segment) : (s.setOpmask m w).segReg seg = s.segReg seg := rfl
@[simp] theorem State.ip_setOpmask (m : BitVec 3) (w : BitVec Config.maxKL) (md : Mode) : (s.setOpmask m w).ip md = s.ip md := by cases md <;> rfl

@[simp] theorem State.gpr_setPc (a : Word) (r : BitVec 4) : (s.setPc a).gpr r = s.gpr r := rfl
@[simp] theorem State.vec_setPc (a : Word) (i : BitVec 5) : (s.setPc a).vec i = s.vec i := rfl
@[simp] theorem State.opmask_setPc (a : Word) (m' : BitVec 3) : (s.setPc a).opmask m' = s.opmask m' := rfl
@[simp] theorem State.mode_setPc (a : Word) : (s.setPc a).mode = s.mode := rfl
@[simp] theorem State.stateEnabled_setPc (a : Word) : (s.setPc a).stateEnabled = s.stateEnabled := rfl
@[simp] theorem State.taskSwitched_setPc (a : Word) : (s.setPc a).taskSwitched = s.taskSwitched := rfl
@[simp] theorem State.hasAvx512f_setPc (a : Word) : (s.setPc a).hasAvx512f = s.hasAvx512f := rfl
@[simp] theorem State.hasAvx512vl_setPc (a : Word) : (s.setPc a).hasAvx512vl = s.hasAvx512vl := rfl
@[simp] theorem State.segReg_setPc (a : Word) (seg : Segment) : (s.setPc a).segReg seg = s.segReg seg := rfl
@[simp] theorem State.ip_setPc (a : Word) (md : Mode) : (s.setPc a).ip md = (match md with | .m64 => a | .m32 => low32 a) := by cases md <;> rfl

@[simp] theorem State.gpr_setMem (mem : Memory) (r : BitVec 4) : (s.setMem mem).gpr r = s.gpr r := rfl
@[simp] theorem State.vec_setMem (mem : Memory) (i : BitVec 5) : (s.setMem mem).vec i = s.vec i := rfl
@[simp] theorem State.opmask_setMem (mem : Memory) (m' : BitVec 3) : (s.setMem mem).opmask m' = s.opmask m' := rfl
@[simp] theorem State.mode_setMem (mem : Memory) : (s.setMem mem).mode = s.mode := rfl
@[simp] theorem State.stateEnabled_setMem (mem : Memory) : (s.setMem mem).stateEnabled = s.stateEnabled := rfl
@[simp] theorem State.taskSwitched_setMem (mem : Memory) : (s.setMem mem).taskSwitched = s.taskSwitched := rfl
@[simp] theorem State.hasAvx512f_setMem (mem : Memory) : (s.setMem mem).hasAvx512f = s.hasAvx512f := rfl
@[simp] theorem State.hasAvx512vl_setMem (mem : Memory) : (s.setMem mem).hasAvx512vl = s.hasAvx512vl := rfl
@[simp] theorem State.segReg_setMem (mem : Memory) (seg : Segment) : (s.setMem mem).segReg seg = s.segReg seg := rfl
@[simp] theorem State.ip_setMem (mem : Memory) (md : Mode) : (s.setMem mem).ip md = s.ip md := by cases md <;> rfl

@[simp] theorem State.gpr_setPending (es : List Event) (r : BitVec 4) : (s.setPending es).gpr r = s.gpr r := rfl
@[simp] theorem State.vec_setPending (es : List Event) (i : BitVec 5) : (s.setPending es).vec i = s.vec i := rfl
@[simp] theorem State.opmask_setPending (es : List Event) (m' : BitVec 3) : (s.setPending es).opmask m' = s.opmask m' := rfl
@[simp] theorem State.mode_setPending (es : List Event) : (s.setPending es).mode = s.mode := rfl
@[simp] theorem State.stateEnabled_setPending (es : List Event) : (s.setPending es).stateEnabled = s.stateEnabled := rfl
@[simp] theorem State.taskSwitched_setPending (es : List Event) : (s.setPending es).taskSwitched = s.taskSwitched := rfl
@[simp] theorem State.hasAvx512f_setPending (es : List Event) : (s.setPending es).hasAvx512f = s.hasAvx512f := rfl
@[simp] theorem State.hasAvx512vl_setPending (es : List Event) : (s.setPending es).hasAvx512vl = s.hasAvx512vl := rfl
@[simp] theorem State.segReg_setPending (es : List Event) (seg : Segment) : (s.setPending es).segReg seg = s.segReg seg := rfl
@[simp] theorem State.ip_setPending (es : List Event) (md : Mode) : (s.setPending es).ip md = s.ip md := by cases md <;> rfl

@[simp] theorem State.gpr_setCr2 (la : Word) (r : BitVec 4) : (s.setCr2 la).gpr r = s.gpr r := rfl
@[simp] theorem State.vec_setCr2 (la : Word) (i : BitVec 5) : (s.setCr2 la).vec i = s.vec i := rfl
@[simp] theorem State.opmask_setCr2 (la : Word) (m' : BitVec 3) : (s.setCr2 la).opmask m' = s.opmask m' := rfl
@[simp] theorem State.mode_setCr2 (la : Word) : (s.setCr2 la).mode = s.mode := rfl
@[simp] theorem State.stateEnabled_setCr2 (la : Word) : (s.setCr2 la).stateEnabled = s.stateEnabled := rfl
@[simp] theorem State.taskSwitched_setCr2 (la : Word) : (s.setCr2 la).taskSwitched = s.taskSwitched := rfl
@[simp] theorem State.hasAvx512f_setCr2 (la : Word) : (s.setCr2 la).hasAvx512f = s.hasAvx512f := rfl
@[simp] theorem State.hasAvx512vl_setCr2 (la : Word) : (s.setCr2 la).hasAvx512vl = s.hasAvx512vl := rfl
@[simp] theorem State.segReg_setCr2 (la : Word) (seg : Segment) : (s.setCr2 la).segReg seg = s.segReg seg := rfl
@[simp] theorem State.ip_setCr2 (la : Word) (md : Mode) : (s.setCr2 la).ip md = s.ip md := by cases md <;> rfl

/-- Reading an opmask register after writing one. -/
theorem State.opmask_setOpmask (m m' : BitVec 3) (w : BitVec Config.maxKL) :
    (s.setOpmask m w).opmask m' = if m' = m then w else s.opmask m' := by
  by_cases h : m' = m
  · subst h; simp [State.opmask]
  · have hne : m.toNat ≠ m'.toNat := fun e => h (BitVec.eq_of_toNat_eq e.symm)
    simp [State.opmask, h, hne]

@[simp] theorem State.opmask_setOpmask_self (m : BitVec 3) (w : BitVec Config.maxKL) :
    (s.setOpmask m w).opmask m = w := by simp [State.opmask_setOpmask]

/-- Writing an opmask register its own value changes nothing. -/
@[simp] theorem State.setOpmask_same (m : BitVec 3) : s.setOpmask m (s.opmask m) = s := by
  simp [State.setOpmask, State.opmask]

@[simp] theorem State.setMem_same : s.setMem s.mem = s := rfl

@[simp] theorem State.setPending_same : s.setPending s.pending = s := rfl

/-- Delivery changes CR2 at most. -/
theorem atDelivery_eq (e : Exc) : atDelivery e s = s ∨ ∃ la, atDelivery e s = s.setCr2 la := by
  cases e <;> simp [atDelivery]

end Sys2Proof.Machine
end

