-- ==== Sys2Proof/Laws/Scatter.lean ====
section
/-! SUPPORT. What the shared operations of the scatter can do, each said once: the instruction's form,
the active lanes, the refusals, the first fault, and the outcomes of the common procedure. -/

namespace Sys2Proof

open Sys2Proof.Machine

@[simp] theorem Form.form_instr (f : Form) (o : Operands) : (f.instr o).form = f := by
  obtain ⟨iw, dw, vl⟩ := f
  cases iw <;> cases dw <;> cases vl <;> rfl

@[simp] theorem Form.operands_instr (f : Form) (o : Operands) : (f.instr o).operands = o := by
  obtain ⟨iw, dw, vl⟩ := f
  cases iw <;> cases dw <;> cases vl <;> rfl

@[simp] theorem Instr.instr_form (i : Instr) : i.form.instr i.operands = i := by
  cases i <;> rfl

/-- Every meaning is the common procedure of its form (40_scatter.md R100). -/
theorem exec_eq_scatter (i : Instr) (s : State) : exec i s = scatter i.form i.operands s := by
  cases i <;> rfl

variable {m : Mode} {f : Form} {o : Operands} {s : State}

/-! The active lanes. -/

theorem mem_activeLanes {l : Lane} :
    l ∈ activeLanes m f o s ↔ ∃ j < elementCount f, isActive o s j = true ∧ laneAt m f o s j = l := by
  simp [activeLanes, and_assoc]

theorem activeLanes_pairwise (m : Mode) (f : Form) (o : Operands) (s : State) :
    (activeLanes m f o s).Pairwise (fun l l' => l.j < l'.j) := by
  unfold activeLanes
  rw [List.pairwise_map]
  exact List.Pairwise.filter _ List.pairwise_lt_range

@[simp] theorem laneAt_j (j : Nat) : (laneAt m f o s j).j = j := rfl
@[simp] theorem laneAt_ea (j : Nat) : (laneAt m f o s j).ea = elementAddress m f o s j := rfl
@[simp] theorem laneAt_chk (j : Nat) : (laneAt m f o s j).chk = elementCheck m f o s j := rfl
@[simp] theorem laneAt_la (j : Nat) : (laneAt m f o s j).la.toNat = elementLinear m f o s j := rfl
@[simp] theorem laneAt_data (j : Nat) :
    (laneAt m f o s j).data = dataElement f.dw (s.vec o.src) j := rfl

/-- A form has at most 16 elements (40_scatter.md R104). -/
theorem elementCount_le (f : Form) : elementCount f ≤ 16 := by
  obtain ⟨iw, dw, vl⟩ := f
  cases iw <;> cases dw <;> cases vl <;> decide

/-- An element has 4 or 8 bytes (40_scatter.md R100). -/
theorem elementSize_eq (f : Form) : elementSize f = 4 ∨ elementSize f = 8 := by
  obtain ⟨iw, dw, vl⟩ := f
  cases dw <;> simp [elementSize, dataBits]

/-! Scope. -/

theorem lane_inScope {l : Lane} {j : Nat} (h : laneAt m f o s j = l) :
    (laneReachesTop m (addressSize m s.csD o) (elementSize f) l = false ∧
      laneNotWriteBack s (elementSize f) l = false) ↔ InScope m f o s j := by
  subst h
  unfold laneReachesTop laneNotWriteBack InScope
  simp only [Bool.or_eq_false_iff, decide_eq_false_iff_not, Nat.not_lt, List.any_eq_false,
    Bool.not_eq_true, and_assoc]
  exact Iff.rfl

/-- Some lane that may be stored, one whose check does not fault, has a property. -/
theorem any_stored {p : Lane → Bool} :
    ((activeLanes m f o s).filter (fun l => l.chk.isNone)).any p = true ↔
      ∃ j < elementCount f, isActive o s j = true ∧ elementCheck m f o s j = none ∧
        p (laneAt m f o s j) = true := by
  simp only [List.any_eq_true, List.mem_filter, mem_activeLanes, Option.isNone_iff_eq_none]
  constructor
  · rintro ⟨_, ⟨⟨j, hj, ha, rfl⟩, hc⟩, hp⟩; exact ⟨j, hj, ha, hc, hp⟩
  · rintro ⟨j, hj, ha, hc, hp⟩; exact ⟨_, ⟨⟨j, hj, ha, rfl⟩, hc⟩, hp⟩

/-- Why lanes are refused, each refusal with its cause. -/
theorem laneRefusal_cases (m : Mode) (f : Form) (o : Operands) (s : State) :
    let stored (j : Nat) := j < elementCount f ∧ isActive o s j = true ∧ elementCheck m f o s j = none
    let past (j : Nat) :=
      laneReachesTop m (addressSize m s.csD o) (elementSize f) (laneAt m f o s j) = true
    let device (j : Nat) := laneNotWriteBack s (elementSize f) (laneAt m f o s j) = true
    let answer := laneRefusal m f o s (activeLanes m f o s)
    ((∃ j, stored j ∧ past j) ∧ answer = some .elementReachesTop) ∨
    ((∀ j, stored j → ¬ past j) ∧ (∃ j, stored j ∧ device j) ∧ answer = some .memoryTypeNotWriteBack) ∨
    ((∀ j, stored j → ¬ past j ∧ ¬ device j) ∧ answer = none) := by
  intro stored past device answer
  let any (p : Lane → Bool) := ((activeLanes m f o s).filter (fun l => l.chk.isNone)).any p
  have none_of {p : Lane → Bool} (h : ¬ any p = true) (j : Nat) (hj : stored j) :
      ¬ p (laneAt m f o s j) = true :=
    fun hp => h (any_stored.2 ⟨j, hj.1, hj.2.1, hj.2.2, hp⟩)
  have some_of {p : Lane → Bool} (h : any p = true) : ∃ j, stored j ∧ p (laneAt m f o s j) = true := by
    obtain ⟨j, hj, ha, hc, hp⟩ := any_stored.1 h
    exact ⟨j, ⟨hj, ha, hc⟩, hp⟩
  by_cases hp : any (laneReachesTop m (addressSize m s.csD o) (elementSize f)) = true
  · exact .inl ⟨some_of hp, if_pos hp⟩
  · by_cases hd : any (laneNotWriteBack s (elementSize f)) = true
    · exact .inr (.inl ⟨none_of hp, some_of hd, (if_neg hp).trans (if_pos hd)⟩)
    · exact .inr (.inr ⟨fun j hj => ⟨none_of hp j hj, none_of hd j hj⟩, (if_neg hp).trans (if_neg hd)⟩)

theorem laneRefusal_eq_none_iff :
    laneRefusal m f o s (activeLanes m f o s) = none ↔
      ∀ j < elementCount f, isActive o s j = true → elementCheck m f o s j = none →
        InScope m f o s j := by
  have scope (j : Nat) := lane_inScope (m := m) (f := f) (o := o) (s := s) (j := j) rfl
  simp only [← scope, ← Bool.not_eq_true]
  rcases laneRefusal_cases m f o s with ⟨⟨j, hj, h⟩, h'⟩ | ⟨-, ⟨j, hj, h⟩, h'⟩ | ⟨h, h'⟩ <;> rw [h']
  · simp only [reduceCtorEq, false_iff]
    exact fun hn => (hn j hj.1 hj.2.1 hj.2.2).1 h
  · simp only [reduceCtorEq, false_iff]
    exact fun hn => (hn j hj.1 hj.2.1 hj.2.2).2 h
  · exact iff_of_true rfl fun j hj ha hc => h j ⟨hj, ha, hc⟩

/-! The first fault. -/

theorem firstFault_eq_none_iff {ls : List Lane} :
    firstFault ls = none ↔ ∀ l ∈ ls, l.chk = none := by
  simp [firstFault, List.findSome?_eq_none_iff]

/-- In ascending lanes the first fault is that of the lowest-numbered faulting one (60_exceptions.md
R162). -/
theorem firstFault_eq_some {ls : List Lane} (hp : ls.Pairwise (fun l l' => l.j < l'.j)) {l : Lane}
    {e : Exc} (h : firstFault ls = some (l, e)) :
    l ∈ ls ∧ l.chk = some e ∧ ∀ l' ∈ ls, l'.j < l.j → l'.chk = none := by
  induction ls with
  | nil => simp [firstFault] at h
  | cons l0 ls ih =>
    rw [List.pairwise_cons] at hp
    unfold firstFault at h ih
    rw [List.findSome?_cons] at h
    cases hc : l0.chk with
    | some e0 =>
      simp only [hc, Option.map_some, Option.some.injEq, Prod.mk.injEq] at h
      obtain ⟨rfl, rfl⟩ := h
      refine ⟨List.mem_cons_self, hc, fun l' hl' hlt => ?_⟩
      rcases List.mem_cons.1 hl' with rfl | hl'
      · exact absurd hlt (lt_irrefl _)
      · exact absurd (lt_trans hlt (hp.1 _ hl')) (lt_irrefl _)
    | none =>
      simp only [hc, Option.map_none] at h
      obtain ⟨hm, hk, hlo⟩ := ih hp.2 h
      refine ⟨List.mem_cons_of_mem _ hm, hk, fun l' hl' hlt => ?_⟩
      rcases List.mem_cons.1 hl' with rfl | hl'
      · exact hc
      · exact hlo _ hl' hlt

/-! The mask. -/

/-- The mask bits of the given lanes are cleared, the others keep their value. -/
theorem bitAt_clearLanes (w : BitVec Config.maxKL) (ls : List Lane) (b : Nat) :
    bitAt (clearLanes w ls) b = (bitAt w b && !ls.any (fun l => l.j == b)) := by
  unfold clearLanes
  induction ls generalizing w with
  | nil => simp
  | cons l ls ih =>
    rw [List.foldl_cons, ih]
    simp only [bitAt, BitVec.getLsbD_and, BitVec.getLsbD_not, BitVec.getLsbD_twoPow, List.any_cons]
    by_cases hb : b < Config.maxKL
    · by_cases h : l.j = b
      · subst h; simp [hb]
      · simp [hb, h, beq_eq_false_iff_ne.2 h]
    · simp [BitVec.getLsbD_of_ge w b (by omega)]

/-! The outcomes. -/

/-- An admitted instruction reaches its elements. -/
theorem Admitted.scatter_eq (h : Admitted m f o s) : scatter f o s = runScatter m f o s := by
  have h1 : undefinedOpcode m f o s = false := by
    simp [undefinedOpcode, h.mask, h.size, h.features, h.enabled]
  have h2 : ¬ (m = .m32 ∧ ¬ extensionBitsStoredOne o = true) := fun hc => hc.2 (h.registers hc.1)
  have h3 : instructionReachesTop m o s = false := by
    simpa [instructionReachesTop] using h.room
  simp only [scatter, h.mode, h1, h2, h3, h.notSwitched, Bool.false_eq_true, if_false]

/-- Everything the checks before the elements can do (30_encoding.md R95). -/
theorem scatter_cases (f : Form) (o : Operands) (s : State) :
    scatter f o s = raise .ud s ∨ scatter f o s = raise .nm s ∨
    scatter f o s = .refused .extensionBitsInM32 ∨
    scatter f o s = .refused .instructionReachesTop ∨
    ∃ m, Admitted m f o s ∧ scatter f o s = runScatter m f o s := by
  cases hm : s.mode with
  | none => left; simp [scatter, hm]
  | some m =>
    by_cases h1 : undefinedOpcode m f o s = true
    · left; simp [scatter, hm, h1]
    by_cases h2 : m = .m32 ∧ ¬ extensionBitsStoredOne o = true
    · right; right; left
      simp only [scatter, hm]
      rw [if_neg h1, if_pos h2]
    by_cases h3 : instructionReachesTop m o s = true
    · right; right; right; left; simp only [scatter, hm, h1, h2, h3]; rfl
    by_cases h4 : s.taskSwitched = true
    · right; left; simp only [scatter, hm, h1, h2, h3, h4]; rfl
    have hu : (o.mask ≠ 0#3 ∧ addressSize m s.csD o ≠ .as16) ∧ hasFeatures f s = true ∧
        s.stateEnabled = true := by
      simpa [undefinedOpcode, and_assoc] using h1
    have adm : Admitted m f o s :=
      { mode := hm, mask := hu.1.1, size := hu.1.2, features := hu.2.1, enabled := hu.2.2
        registers := fun e => by by_contra hx; exact h2 ⟨e, hx⟩
        room := by simpa [instructionReachesTop] using h3
        notSwitched := by simpa using h4 }
    exact .inr (.inr (.inr (.inr ⟨m, adm, adm.scatter_eq⟩)))

/-- Everything the elements can do (40_scatter.md R100): a refusal, completion, or suspension at the
lowest-numbered faulting element. -/
theorem runScatter_cases (m : Mode) (f : Form) (o : Operands) (s : State) :
    runScatter m f o s = .refused .elementReachesTop ∨
    runScatter m f o s = .refused .memoryTypeNotWriteBack ∨
    (Permitted m f o s ∧ runScatter m f o s = .next (complete m f o s (activeLanes m f o s))) ∨
    ∃ j e, FaultsAt m f o s j e ∧
      runScatter m f o s = suspend f o s (doneLanes s j (activeLanes m f o s)) e := by
  cases hr : laneRefusal m f o s (activeLanes m f o s) with
  | some r =>
    have hrr : r = .elementReachesTop ∨ r = .memoryTypeNotWriteBack := by
      rcases laneRefusal_cases m f o s with ⟨-, h⟩ | ⟨-, -, h⟩ | ⟨-, h⟩ <;> rw [hr] at h <;> cases h
      · exact .inl rfl
      · exact .inr rfl
    rcases hrr with rfl | rfl
    · left; simp [runScatter, hr]
    · right; left; simp [runScatter, hr]
  | none =>
    have scope := laneRefusal_eq_none_iff.1 hr
    cases hf : firstFault (activeLanes m f o s) with
    | none =>
      refine .inr (.inr (.inl ⟨fun j hj ha => ?_, by simp [runScatter, hr, hf]⟩))
      have hc : elementCheck m f o s j = none :=
        firstFault_eq_none_iff.1 hf _ (mem_activeLanes.2 ⟨j, hj, ha, rfl⟩)
      exact ⟨hc, scope j hj ha hc⟩
    | some p =>
      obtain ⟨l, e⟩ := p
      obtain ⟨hl, hc, hlo⟩ := firstFault_eq_some (activeLanes_pairwise m f o s) hf
      obtain ⟨j, hj, ha, rfl⟩ := mem_activeLanes.1 hl
      refine .inr (.inr (.inr ⟨j, e, ⟨hj, ha, hc, fun i hi hai => ?_, scope⟩,
        by simp [runScatter, hr, hf]⟩))
      exact hlo _ (mem_activeLanes.2 ⟨i, lt_trans hi hj, hai, rfl⟩) hi

/-- A permitted instruction completes. -/
theorem Permitted.runScatter_eq (h : Permitted m f o s) :
    runScatter m f o s = .next (complete m f o s (activeLanes m f o s)) := by
  have hr : laneRefusal m f o s (activeLanes m f o s) = none :=
    laneRefusal_eq_none_iff.2 fun j hj ha _ => (h j hj ha).2
  have hf : firstFault (activeLanes m f o s) = none := by
    rw [firstFault_eq_none_iff]
    intro l hl
    obtain ⟨j, hj, ha, rfl⟩ := mem_activeLanes.1 hl
    exact (h j hj ha).1
  simp [runScatter, hr, hf]

/-- An instruction is suspended at its lowest faulting element. -/
theorem FaultsAt.runScatter_eq {j : Nat} {e : Exc} (h : FaultsAt m f o s j e) :
    runScatter m f o s = suspend f o s (doneLanes s j (activeLanes m f o s)) e := by
  have hr : laneRefusal m f o s (activeLanes m f o s) = none :=
    laneRefusal_eq_none_iff.2 h.scope
  cases hf : firstFault (activeLanes m f o s) with
  | none =>
    have := firstFault_eq_none_iff.1 hf _ (mem_activeLanes.2 ⟨j, h.inForm, h.active, rfl⟩)
    simp [h.fault] at this
  | some p =>
    obtain ⟨l, e'⟩ := p
    obtain ⟨hl, hc, hlo⟩ := firstFault_eq_some (activeLanes_pairwise m f o s) hf
    obtain ⟨j', hj', ha', rfl⟩ := mem_activeLanes.1 hl
    have h1 : ¬ j < j' := fun hlt => by
      have := hlo _ (mem_activeLanes.2 ⟨j, h.inForm, h.active, rfl⟩) hlt
      simp [h.fault] at this
    have h2 : ¬ j' < j := fun hlt => by
      have := h.lowest j' hlt ha'
      rw [laneAt_chk, this] at hc
      cases hc
    obtain rfl : j' = j := by omega
    obtain rfl : e' = e := by simpa [h.fault] using hc.symm
    simp [runScatter, hr, hf]

/-- A suspension: the fault itself, or the events of the completed elements in lieu of it
(60_exceptions.md R165, R167). -/
theorem suspend_cases (f : Form) (o : Operands) (s : State) (done : List Lane) (e : Exc) :
    (raisedEvents s (elementSize f) done = [] ∧
      suspend f o s done e = raise e (partly f o s done)) ∨
    (raisedEvents s (elementSize f) done ≠ [] ∧
      suspend f o s done e =
        deliverEvents (raisedEvents s (elementSize f) done) (withResumeFlag s.eflags)
          (partly f o s done)) := by
  unfold suspend
  cases h : raisedEvents s (elementSize f) done with
  | nil => left; simp
  | cons ev evs => right; simp

/-! The meanings, inverted. -/

theorem activeLanes_succ (kl : Nat) :
    ((List.range (kl + 1)).filter (isActive o s)).map (laneAt m f o s) =
      ((List.range kl).filter (isActive o s)).map (laneAt m f o s) ++
        (if isActive o s kl = true then [laneAt m f o s kl] else []) := by
  rw [List.range_succ, List.filter_append, List.map_append]
  by_cases h : isActive o s kl = true <;> simp [h]

theorem storeLanes_append (n : Nat) (mem : Memory) (ls ls' : List Lane) :
    storeLanes n mem (ls ++ ls') = storeLanes n (storeLanes n mem ls) ls' := by
  simp [storeLanes, Memory.writeAll_append]

/-- The lanes that are complete at a fault are active lanes, and exactly those that `isDone` names. -/
theorem mem_doneLanes {l : Lane} {j : Nat} :
    l ∈ doneLanes s j (activeLanes m f o s) ↔
      ∃ n, isDone m f o s j n = true ∧ laneAt m f o s n = l := by
  simp only [doneLanes, List.mem_filter, mem_activeLanes, isDone, Bool.and_eq_true]
  constructor
  · rintro ⟨⟨n, hn, ha, rfl⟩, h⟩
    exact ⟨n, ⟨⟨decide_eq_true hn, ha⟩, h⟩, rfl⟩
  · rintro ⟨n, ⟨⟨hn, ha⟩, h⟩, rfl⟩
    exact ⟨⟨n, of_decide_eq_true hn, ha, rfl⟩, h⟩

/-- An instruction that is admitted and permitted completes. -/
theorem exec_complete {i : Instr} (ha : Admitted m i.form i.operands s)
    (hp : Permitted m i.form i.operands s) :
    exec i s = .next (complete m i.form i.operands s (activeLanes m i.form i.operands s)) := by
  rw [exec_eq_scatter, ha.scatter_eq, hp.runScatter_eq]

/-- An instruction that completes was admitted and permitted. -/
theorem exec_next {i : Instr} {t : State} (h : exec i s = .next t) :
    ∃ m, Admitted m i.form i.operands s ∧ Permitted m i.form i.operands s ∧
      t = complete m i.form i.operands s (activeLanes m i.form i.operands s) := by
  rw [exec_eq_scatter] at h
  rcases scatter_cases i.form i.operands s with h' | h' | h' | h' | ⟨m, ha, h'⟩ <;> rw [h'] at h
  · cases h
  · cases h
  · cases h
  · cases h
  · refine ⟨m, ha, ?_⟩
    rcases runScatter_cases m i.form i.operands s with h' | h' | ⟨hp, h'⟩ | ⟨j, e, hf, h'⟩ <;> rw [h'] at h
    · cases h
    · cases h
    · exact ⟨hp, by cases h; rfl⟩
    · rcases suspend_cases i.form i.operands s (doneLanes s j (activeLanes m i.form i.operands s)) e with
        ⟨-, h'⟩ | ⟨-, h'⟩ <;> rw [h'] at h <;> cases h

/-- An instruction that raises an exception: `#UD` or `#NM` with the state as it was, or the fault of
its lowest faulting element where no completed element raised an event. -/
theorem exec_raised {i : Instr} {t : State} {e : Exc} (h : exec i s = .fault (.raised e t)) :
    (e = .ud ∧ t = s) ∨ (e = .nm ∧ t = s) ∨
    ∃ m j, Admitted m i.form i.operands s ∧ FaultsAt m i.form i.operands s j e ∧
      raisedEvents s (elementSize i.form)
        (doneLanes s j (activeLanes m i.form i.operands s)) = [] ∧
      t = atDelivery e (partly i.form i.operands s
        (doneLanes s j (activeLanes m i.form i.operands s))) := by
  rw [exec_eq_scatter] at h
  rcases scatter_cases i.form i.operands s with h' | h' | h' | h' | ⟨m, ha, h'⟩ <;> rw [h'] at h
  · cases h; exact .inl ⟨rfl, rfl⟩
  · cases h; exact .inr (.inl ⟨rfl, rfl⟩)
  · cases h
  · cases h
  · rcases runScatter_cases m i.form i.operands s with h' | h' | ⟨hp, h'⟩ | ⟨j, e', hf, h'⟩ <;> rw [h'] at h
    · cases h
    · cases h
    · cases h
    · rcases suspend_cases i.form i.operands s (doneLanes s j (activeLanes m i.form i.operands s)) e' with
        ⟨hn, h'⟩ | ⟨-, h'⟩ <;> rw [h'] at h <;> cases h
      exact .inr (.inr ⟨m, j, ha, hf, hn, rfl⟩)

/-- An instruction that delivers the events of its completed elements in lieu of a fault. -/
theorem exec_delivered {i : Instr} {t : State} {evs : List Event} {flags : BitVec 32}
    (h : exec i s = .fault (.delivered evs flags t)) :
    ∃ m j e, Admitted m i.form i.operands s ∧ FaultsAt m i.form i.operands s j e ∧
      evs = raisedEvents s (elementSize i.form)
        (doneLanes s j (activeLanes m i.form i.operands s)) ∧ evs ≠ [] ∧
      flags = withResumeFlag s.eflags ∧
      t = partly i.form i.operands s
        (doneLanes s j (activeLanes m i.form i.operands s)) := by
  rw [exec_eq_scatter] at h
  rcases scatter_cases i.form i.operands s with h' | h' | h' | h' | ⟨m, ha, h'⟩ <;> rw [h'] at h
  · cases h
  · cases h
  · cases h
  · cases h
  · rcases runScatter_cases m i.form i.operands s with h' | h' | ⟨hp, h'⟩ | ⟨j, e', hf, h'⟩ <;> rw [h'] at h
    · cases h
    · cases h
    · cases h
    · rcases suspend_cases i.form i.operands s (doneLanes s j (activeLanes m i.form i.operands s)) e' with
        ⟨-, h'⟩ | ⟨hn, h'⟩ <;> rw [h'] at h <;> cases h
      exact ⟨m, j, e', ha, hf, rfl, hn, rfl, rfl⟩

/-! The stores of some lanes, byte by byte (20_memory.md R41, R48). -/

/-- Lane `l` covers the byte at `a`. -/
def Covers (n : Nat) (l : Lane) (a : Nat) : Prop := l.la.toNat ≤ a ∧ a < l.la.toNat + n

/-- A byte that no lane covers is as before. -/
theorem read_storeLanes_none {n a : Nat} {mem : Memory} {ls : List Lane}
    (h : ∀ l ∈ ls, ¬ Covers n l a) : (storeLanes n mem ls).read a = mem.read a := by
  refine Memory.read_writeAll_of_not_mem _ _ _ fun w hw hwa => ?_
  obtain ⟨l, hl, hw⟩ := List.mem_flatMap.1 hw
  obtain ⟨b, hb, rfl⟩ := mem_elementBytes.1 hw
  simp only at hwa
  exact h l hl ⟨by omega, by omega⟩

/-- A byte that lane `l` covers and no higher-numbered lane does is lane `l`'s. -/
theorem read_storeLanes_last {n a : Nat} {mem : Memory} {ls : List Lane}
    (hp : ls.Pairwise (fun l l' => l.j < l'.j)) {l : Lane} (hl : l ∈ ls) (hc : Covers n l a)
    (hlast : ∀ l' ∈ ls, l.j < l'.j → ¬ Covers n l' a) :
    (storeLanes n mem ls).read a = some (l.data.extractLsb' (8 * (a - l.la.toNat)) 8) := by
  obtain ⟨l1, l2, rfl⟩ := List.append_of_mem hl
  have hl2 : ∀ l' ∈ l2, l.j < l'.j := by
    rw [List.pairwise_append] at hp
    exact (List.pairwise_cons.1 hp.2.1).1
  rw [show l1 ++ l :: l2 = (l1 ++ [l]) ++ l2 by simp, storeLanes_append,
    read_storeLanes_none fun l' h' => hlast l' (by simp [h']) (hl2 l' h'), storeLanes_append]
  have := Memory.read_store (storeLanes n mem l1) l.la.toNat n l.data a
  rw [if_pos (show l.la.toNat ≤ a ∧ a < l.la.toNat + n from hc)] at this
  simpa [storeLanes, laneBytes, Memory.store] using this

/-- Either no lane covers a byte, or there is a highest-numbered one that does. -/
theorem last_cover (n : Nat) (ls : List Lane) (a : Nat) :
    (∀ l ∈ ls, ¬ Covers n l a) ∨
    ∃ l ∈ ls, Covers n l a ∧ ∀ l' ∈ ls, l.j < l'.j → ¬ Covers n l' a := by
  induction ls with
  | nil => left; simp
  | cons x xs ih =>
    by_cases hx : Covers n x a
    · right
      rcases ih with hn | ⟨l, hl, hc, hlast⟩
      · refine ⟨x, by simp, hx, fun l' hl' hlt => ?_⟩
        rcases List.mem_cons.1 hl' with rfl | hl'
        · exact absurd hlt (lt_irrefl _)
        · exact hn l' hl'
      · by_cases hj : l.j < x.j
        · refine ⟨x, by simp, hx, fun l' hl' hlt => ?_⟩
          rcases List.mem_cons.1 hl' with rfl | hl'
          · exact absurd hlt (lt_irrefl _)
          · exact hlast l' hl' (lt_trans hj hlt)
        · refine ⟨l, List.mem_cons_of_mem _ hl, hc, fun l' hl' hlt => ?_⟩
          rcases List.mem_cons.1 hl' with rfl | hl'
          · exact absurd hlt hj
          · exact hlast l' hl' hlt
    · rcases ih with hn | ⟨l, hl, hc, hlast⟩
      · left
        intro l hl
        rcases List.mem_cons.1 hl with rfl | hl
        · exact hx
        · exact hn l hl
      · right
        refine ⟨l, List.mem_cons_of_mem _ hl, hc, fun l' hl' hlt => ?_⟩
        rcases List.mem_cons.1 hl' with rfl | hl'
        · exact hx
        · exact hlast l' hl' hlt

/-- The mask at a suspension (40_scatter.md R107): exactly the complete elements' bits are cleared. -/
theorem bitAt_clearLanes_doneLanes (m : Mode) (f : Form) (o : Operands) (s : State) (j b : Nat) :
    bitAt (clearLanes (s.opmask o.mask) (doneLanes s j (activeLanes m f o s))) b =
      (bitAt (s.opmask o.mask) b && !isDone m f o s j b) := by
  rw [bitAt_clearLanes]
  congr 2
  rw [Bool.eq_iff_iff, List.any_eq_true]
  constructor
  · rintro ⟨l, hl, hb⟩
    obtain ⟨n, hn, rfl⟩ := mem_doneLanes.1 hl
    rw [laneAt_j, beq_iff_eq] at hb
    subst hb
    exact hn
  · exact fun h => ⟨_, mem_doneLanes.2 ⟨b, h, rfl⟩, by simp⟩

end Sys2Proof
end

