-- ==== Sys2Proof/Laws/Step.lean ====
section
/-! SUPPORT. What a step and the fetch can do, each said once. -/

namespace Sys2Proof

open Sys2Proof.Machine

/-- A step with no trap pending, in a mode of the spec: what the decoder's answer makes of it. -/
theorem step_eq {s : State} {m : Mode} (hp : pendingTraps s = []) (hm : s.mode = some m) :
    step s = match decode m (fetchWindow m s) with
      | .ok i _ => exec i s
      | .invalidOpcode => raise .ud s
      | .notInFamily => .refused .notInFamily
      | .needMore shown => fetchShort m shown s := by
  rw [step, hm]
  exact if_neg (not_not_intro hp)

/-- When the bytes end before the instruction does, the decoder says whether they show the family. -/
theorem decode_needMore {m : Mode} {bytes : List Byte} {shown : Bool}
    (h : decode m bytes = .needMore shown) : shown = true ↔ ShowsFamily m bytes := by
  constructor
  · rintro rfl
    exact decodeFrom_needMore_true bytes [] false h
  · rintro ⟨before, p0, p1, p2, op, rest, rfl, hb, -⟩
    obtain ⟨seen, bad, h', -⟩ := decodeFrom_before m before hb [] false ([0x62#8, p0, p1, p2, op] ++ rest)
    rw [decode, List.append_assoc, h'] at h
    simp only [List.cons_append, List.nil_append, decodeFrom, classifyByte_evex, if_true] at h
    rcases decodeEvex_needMore h with ⟨-, hl⟩ | ⟨hs, -⟩
    · simp at hl; omega
    · exact hs

/-- Everything a fetch that ends too early can do. -/
theorem fetchShort_cases (m : Mode) (shown : Bool) (s : State) :
    fetchShort m shown s = raise .gp s ∨ (∃ a, fetchShort m shown s = .fault (.unwrittenByte a)) ∨
    ∃ r, fetchShort m shown s = .refused r := by
  simp only [fetchShort]
  split
  · split
    · exact .inl rfl
    · exact .inr (.inr ⟨_, rfl⟩)
  · split
    · exact .inr (.inr ⟨_, rfl⟩)
    · exact .inr (.inl ⟨_, rfl⟩)

/-- Everything a step can do. -/
theorem step_cases (s : State) :
    step s = deliverPending s ∨ (∃ i, step s = exec i s) ∨
    step s = raise .ud s ∨ step s = raise .gp s ∨ (∃ a, step s = .fault (.unwrittenByte a)) ∨
    ∃ r, step s = .refused r := by
  cases hm : s.mode with
  | none => exact .inr (.inr (.inr (.inr (.inr ⟨.modeOutOfScope, by simp [step, hm]⟩))))
  | some m =>
    by_cases hp : pendingTraps s = []
    · rw [step_eq hp hm]
      cases decode m (fetchWindow m s) with
      | ok i rest => exact .inr (.inl ⟨i, rfl⟩)
      | invalidOpcode => exact .inr (.inr (.inl rfl))
      | notInFamily => exact .inr (.inr (.inr (.inr (.inr ⟨_, rfl⟩))))
      | needMore shown => exact .inr (.inr (.inr (fetchShort_cases m shown s)))
    · exact .inl (by simp [step, hm, hp])

/-- Every state a step leaves behind, next or at delivery: the one before, the one before with its traps
no longer pending, a completed scatter, or a suspended one. -/
theorem step_state_cases {s t : State}
    (h : step s = .next t ∨ (∃ e, step s = .fault (.raised e t)) ∨
      ∃ events flags, step s = .fault (.delivered events flags t)) :
    t = s ∨ t = s.setPending (pendingInterrupts s) ∨ ∃ (i : Instr) (m : Mode), Admitted m i.form i.operands s ∧
      ((Permitted m i.form i.operands s ∧
          t = complete m i.form i.operands s (activeLanes m i.form i.operands s)) ∨
        ∃ j e, FaultsAt m i.form i.operands s j e ∧
          (t = atDelivery e (partly i.form i.operands s
              (doneLanes s j (activeLanes m i.form i.operands s))) ∨
            t = partly i.form i.operands s
              (doneLanes s j (activeLanes m i.form i.operands s)))) := by
  rcases step_cases s with h' | ⟨i, h'⟩ | h' | h' | ⟨a, h'⟩ | ⟨r, h'⟩ <;> rw [h'] at h
  · rcases h with h | ⟨e, h⟩ | ⟨_, _, h⟩ <;> cases h
    exact .inr (.inl rfl)
  · rcases h with h | ⟨e, h⟩ | ⟨_, _, h⟩
    · obtain ⟨m, ha, hp, rfl⟩ := exec_next h
      exact .inr (.inr ⟨i, m, ha, .inl ⟨hp, rfl⟩⟩)
    · rcases exec_raised h with ⟨-, h⟩ | ⟨-, h⟩ | ⟨m, j, ha, hf, -, rfl⟩
      · exact .inl h
      · exact .inl h
      · exact .inr (.inr ⟨i, m, ha, .inr ⟨j, e, hf, .inl rfl⟩⟩)
    · obtain ⟨m, j, e, ha, hf, -, -, -, rfl⟩ := exec_delivered h
      exact .inr (.inr ⟨i, m, ha, .inr ⟨j, e, hf, .inr rfl⟩⟩)
  · rcases h with h | ⟨e, h⟩ | ⟨_, _, h⟩ <;> cases h
    exact .inl rfl
  · rcases h with h | ⟨e, h⟩ | ⟨_, _, h⟩ <;> cases h
    exact .inl rfl
  · rcases h with h | ⟨e, h⟩ | ⟨_, _, h⟩ <;> cases h
  · rcases h with h | ⟨e, h⟩ | ⟨_, _, h⟩ <;> cases h

/-- The fetch sees the bytes that memory holds. -/
theorem fetchBytes_of_read (mem : Memory) (top : Nat) (bs : List Byte) :
    ∀ a n : Nat, bs.length ≤ n → a + bs.length < top →
      (∀ k < bs.length, mem.read (a + k) = bs[k]?) → ∃ rest, fetchBytes mem top a n = bs ++ rest := by
  induction bs with
  | nil => intro a n _ _ _; exact ⟨_, rfl⟩
  | cons b bs ih =>
    intro a n hn ht hr
    cases n with
    | zero => simp at hn
    | succ n =>
      have h0 := hr 0 (by simp)
      simp only [Nat.add_zero, List.getElem?_cons_zero] at h0
      simp only [List.length_cons] at hn ht
      obtain ⟨rest, h⟩ := ih (a + 1) n (by omega) (by omega) (fun k hk => by
        have := hr (k + 1) (by simp; omega)
        simpa [Nat.add_assoc, Nat.add_comm 1 k] using this)
      refine ⟨rest, ?_⟩
      simp only [fetchBytes, if_pos (show a < top by omega), h0, h, List.cons_append]

/-- The fetch stops at the first byte that nothing has written, or at the top. -/
theorem fetchBytes_stops (mem : Memory) (top : Nat) :
    ∀ n a : Nat, (fetchBytes mem top a n).length ≤ n ∧
      ((fetchBytes mem top a n).length < n → a + (fetchBytes mem top a n).length < top →
        mem.read (a + (fetchBytes mem top a n).length) = none) := by
  intro n
  induction n with
  | zero => intro a; simp [fetchBytes]
  | succ n ih =>
    intro a
    unfold fetchBytes
    split
    · split
      · obtain ⟨h1, h2⟩ := ih (a + 1)
        simp only [List.length_cons]
        refine ⟨by omega, fun h3 h4 => ?_⟩
        have := h2 (by omega) (by omega)
        rw [← this]; congr 1; omega
      · next h => exact ⟨by simp, fun _ _ => by simpa using h⟩
    · next h => simp; omega

/-- The memory of the reset state is in canonical form. -/
theorem reset_mem_wf : State.reset.mem.wf = true := by decide

/-- Placing an instruction keeps memory canonical. -/
theorem placeAtPc_wf {s : State} {bytes : List Byte} (h : s.mem.wf = true)
    (hr : s.pc.toNat + bytes.length ≤ 2 ^ 64) : (placeAtPc s bytes).mem.wf = true := by
  refine Memory.wf_writeAll h fun w hw => ?_
  obtain ⟨i, hi, rfl⟩ := List.mem_map.1 hw
  have := List.mem_range.1 hi
  show s.pc.toNat + i < 2 ^ 64
  omega

end Sys2Proof
end

