-- ==== Sys2Proof/Laws/StoreCheck.lean ====
section
/-! SUPPORT. What the access check of one element can answer (20_memory.md R36). -/

namespace Sys2Proof

open Sys2Proof.Machine

/-- The error code of a store's page fault: write set, instruction fetch clear, the others the rule's
(60_exceptions.md R157). -/
theorem pageFaultCode_bits (r : PageRule) :
    bitAt (pageFaultCode r) 0 = r.present ∧ bitAt (pageFaultCode r) 1 = true ∧
    bitAt (pageFaultCode r) 2 = r.user ∧ bitAt (pageFaultCode r) 3 = r.rsvd ∧
    bitAt (pageFaultCode r) 4 = false ∧ bitAt (pageFaultCode r) 5 = r.key := by
  obtain ⟨range, p, u, rs, k, at'⟩ := r
  have : ∀ p u rs k : Bool,
      let code := (BitVec.ofBool k ++ 0#1 ++ BitVec.ofBool rs ++ BitVec.ofBool u ++ 1#1 ++
        BitVec.ofBool p).setWidth 32
      bitAt code 0 = p ∧ bitAt code 1 = true ∧ bitAt code 2 = u ∧ bitAt code 3 = rs ∧
        bitAt code 4 = false ∧ bitAt code 5 = k := by decide
  exact this p u rs k

theorem segmentFault_eq (seg : Segment) :
    segmentFault seg = if seg = .ss then .ss else .gp := by
  cases seg <;> rfl

/-- A segment-level check answers the segment's fault, or `#GP(0)` outside SS. -/
theorem segmentCheck_cases {m : Mode} {s : State} {seg : Segment} {ea la : Word} {n : Nat} {e : Exc}
    (h : segmentCheck m s seg ea la n = some e) : e = if seg = .ss then .ss else .gp := by
  have hseg := segmentFault_eq seg
  unfold segmentCheck at h
  cases m with
  | m64 =>
    simp only at h
    split at h
    · rw [← hseg]; exact (Option.some.inj h).symm
    · cases h
  | m32 =>
    simp only at h
    split at h
    · next hc => rw [if_neg hc.1]; exact (Option.some.inj h).symm
    · split at h
      · rw [← hseg]; exact (Option.some.inj h).symm
      · cases h

/-- A page check answers a page fault at the lowest byte that a rule covers (60_exceptions.md R163). -/
theorem pageCheck_some {m : Mode} {s : State} {la : Word} {n : Nat} {e : Exc}
    (h : pageCheck m s la n = some e) :
    ∃ b < n, ∃ r ∈ s.pageRules, e = .pf (pageFaultCode r) (r.recorded.getD (byteAddress m la b)) ∧
      r.range.contains (byteAddress m la b).toNat = true ∧
      ∀ b' < b, ∀ r' ∈ s.pageRules, r'.range.contains (byteAddress m la b').toNat = false := by
  unfold pageCheck at h
  obtain ⟨l1, b, l2, hl, hb, hlt⟩ := List.findSome?_eq_some_iff.1 h
  obtain ⟨r, hr, rfl⟩ := Option.map_eq_some_iff.1 hb
  have hlen : l1.length + (l2.length + 1) = n := by
    have := congrArg List.length hl
    simpa [Nat.add_comm] using this.symm
  have get (k : Nat) (hk : k < n) : (l1 ++ b :: l2)[k]? = some k := by
    rw [← hl]; exact List.getElem?_range hk
  have hbl : b = l1.length := by
    have := get l1.length (by omega)
    simpa using this
  refine ⟨b, by omega, r, List.mem_of_find?_eq_some hr, rfl, by simpa using List.find?_some hr,
    fun b' hb' r' hr' => ?_⟩
  have hin : b' ∈ l1 := by
    have := get b' (by omega)
    rw [List.getElem?_append_left (by omega)] at this
    exact List.mem_of_getElem? this
  have := hlt b' hin
  simp only [Option.map_eq_none_iff, List.find?_eq_none] at this
  simpa using this r' hr'

/-- The check of an element answers `#SS(0)`, `#GP(0)` or a page fault, and no other. -/
theorem elementCheck_cases {m : Mode} {f : Form} {o : Operands} {s : State} {j : Nat} {e : Exc}
    (h : elementCheck m f o s j = some e) :
    e = (if segmentOf m o = .ss then .ss else .gp) ∨
    pageCheck m s (linearAddress m s (segmentOf m o) (elementAddress m f o s j)) (elementSize f) =
      some e := by
  unfold elementCheck storeCheck at h
  simp only [Option.or_eq_some_iff] at h
  exact h.imp segmentCheck_cases And.right

end Sys2Proof
end

