-- ==== Sys2Proof/Tests/Slice0.lean ====
section
/-! SUPPORT. The model's own tests. Expected bytes, words and addresses are those of
spec/95_test_vectors.md (named V, F, P below) or computed by hand from the rule cited. For every statement
with hypotheses a theorem witness_<what> shows a state and operands that meet them together. -/

namespace Sys2Proof.Tests

open Sys2Proof.Machine

set_option maxRecDepth 8000
set_option exponentiation.threshold 1024

/-! Helpers. -/

/-- A vector register from its elements of `w` bits, element 0 first. -/
def packed (w : Nat) (es : List Nat) : Zmm :=
  es.foldr (fun e acc => (acc <<< w) ||| BitVec.ofNat 512 e) 0#512

def bytesOf (l : List Nat) : List Byte := l.map (BitVec.ofNat 8)

/-- The launch state with these bytes at the pc, 400000H. -/
def launch (code : List Nat) : State :=
  placeAtPc { State.reset with pc := 0x400000#64 } (bytesOf code)

/-- The same in M32 with CS.D = 1. -/
def launch32 (code : List Nat) : State :=
  { launch code with efer := 0#64, csL := false, csD := true }

def withX (r : BitVec 4) (w : Word) (s : State) : State := { s with x := s.x.set r.toNat w r.isLt }
def withV (r : BitVec 5) (w : Zmm) (s : State) : State := { s with v := s.v.set r.toNat w r.isLt }
def withK (r : BitVec 3) (w : Nat) (s : State) : State := s.setOpmask r (BitVec.ofNat 64 w)
def withRules (rules : List PageRule) (s : State) : State := { s with pageRules := rules }
def withWatches (ws : List Watch) (s : State) : State := { s with watches := ws }

/-- The memory at `a` holds these bytes. -/
def memIs (s : State) (a : Nat) (bs : List Nat) : Bool :=
  (List.range bs.length).all fun i => s.mem.read (a + i) == some (BitVec.ofNat 8 (bs.getD i 0))

/-- Nothing has been written at these addresses. -/
def untouched (s : State) (a n : Nat) : Bool :=
  (List.range n).all fun i => (s.mem.read (a + i)).isNone

def nextHas (r : Result) (p : State → Bool) : Bool :=
  match r with
  | .next t => p t
  | _ => false

def raisedHas (r : Result) (e : Exc) (p : State → Bool) : Bool :=
  match r with
  | .fault (.raised e' t) => e' == e && p t
  | _ => false

def deliveredHas (r : Result) (p : List Event → BitVec 32 → State → Bool) : Bool :=
  match r with
  | .fault (.delivered evs flags t) => p evs flags t
  | _ => false

def refusedWith (r : Result) (why : Refusal) : Bool :=
  match r with
  | .refused w => w == why
  | _ => false

theorem of_nextHas {r : Result} {p : State → Bool} (h : nextHas r p = true) :
    ∃ t, r = .next t ∧ p t = true := by
  unfold nextHas at h
  split at h
  · exact ⟨_, rfl, h⟩
  · cases h

theorem of_raisedHas {r : Result} {e : Exc} {p : State → Bool} (h : raisedHas r e p = true) :
    ∃ t, r = .fault (.raised e t) ∧ p t = true := by
  unfold raisedHas at h
  split at h
  · simp only [Bool.and_eq_true, beq_iff_eq] at h
    obtain ⟨rfl, h⟩ := h
    exact ⟨_, rfl, h⟩
  · cases h

theorem of_deliveredHas {r : Result} {p : List Event → BitVec 32 → State → Bool}
    (h : deliveredHas r p = true) :
    ∃ evs flags t, r = .fault (.delivered evs flags t) ∧ p evs flags t = true := by
  unfold deliveredHas at h
  split at h
  · exact ⟨_, _, _, rfl, h⟩
  · cases h

/-- `Admitted`, as a test that can be evaluated. -/
def admittedB (m : Mode) (f : Form) (o : Operands) (s : State) : Bool :=
  (s.mode == some m) && (o.mask != 0#3) && (addressSize m s.csD o != .as16) && hasFeatures f s &&
    s.stateEnabled && (m != .m32 || extensionBitsStoredOne o) &&
    decide ((s.ip m).toNat + ilen o < addressSpace m) && !s.taskSwitched

theorem admitted_of {m : Mode} {f : Form} {o : Operands} {s : State} (h : admittedB m f o s = true) :
    Admitted m f o s := by
  simp only [admittedB, Bool.and_eq_true, beq_iff_eq, bne_iff_ne, decide_eq_true_eq,
    Bool.not_eq_true', Bool.or_eq_true] at h
  obtain ⟨⟨⟨⟨⟨⟨⟨h1, h2⟩, h3⟩, h4⟩, h5⟩, h6⟩, h7⟩, h8⟩ := h
  exact ⟨h1, h2, h3, h4, h5, fun e => h6.resolve_left (fun hne => hne e), h7, h8⟩

def inScopeB (m : Mode) (f : Form) (o : Operands) (s : State) (j : Nat) : Bool :=
  decide ((elementAddress m f o s j).toNat + elementSize f ≤ sizeLimit (addressSize m s.csD o)) &&
    decide (elementLinear m f o s j + elementSize f ≤ addressSpace m) &&
    s.notWriteBack.all fun r => !r.touches (elementLinear m f o s j) (elementSize f)

theorem inScope_of {m : Mode} {f : Form} {o : Operands} {s : State} {j : Nat}
    (h : inScopeB m f o s j = true) : InScope m f o s j := by
  simp only [inScopeB, Bool.and_eq_true, decide_eq_true_eq, List.all_eq_true, Bool.not_eq_true'] at h
  exact ⟨h.1.1, h.1.2, h.2⟩

def permittedB (m : Mode) (f : Form) (o : Operands) (s : State) : Bool :=
  (List.range (elementCount f)).all fun j =>
    !isActive o s j || ((elementCheck m f o s j).isNone && inScopeB m f o s j)

theorem permitted_of {m : Mode} {f : Form} {o : Operands} {s : State}
    (h : permittedB m f o s = true) : Permitted m f o s := by
  intro j hj ha
  have := List.all_eq_true.1 h j (List.mem_range.2 hj)
  simp only [ha, Bool.not_true, Bool.false_or, Bool.and_eq_true, Option.isNone_iff_eq_none] at this
  exact ⟨this.1, inScope_of this.2⟩

def faultsAtB (m : Mode) (f : Form) (o : Operands) (s : State) (j : Nat) (e : Exc) : Bool :=
  decide (j < elementCount f) && isActive o s j && (elementCheck m f o s j == some e) &&
    ((List.range j).all fun i => !isActive o s i || (elementCheck m f o s i).isNone) &&
    ((List.range (elementCount f)).all fun i =>
      !isActive o s i || (elementCheck m f o s i).isSome || inScopeB m f o s i)

theorem faultsAt_of {m : Mode} {f : Form} {o : Operands} {s : State} {j : Nat} {e : Exc}
    (h : faultsAtB m f o s j e = true) : FaultsAt m f o s j e := by
  simp only [faultsAtB, Bool.and_eq_true, decide_eq_true_eq, beq_iff_eq] at h
  obtain ⟨⟨⟨⟨h1, h2⟩, h3⟩, h4⟩, h5⟩ := h
  refine ⟨h1, h2, h3, fun i hi ha => ?_, fun i hi ha hc => ?_⟩
  · have := List.all_eq_true.1 h4 i (List.mem_range.2 hi)
    simpa [ha] using this
  · have := List.all_eq_true.1 h5 i (List.mem_range.2 hi)
    simp only [ha, hc, Bool.not_true, Bool.false_or, Option.isSome_none] at this
    exact inScope_of this

/-! WellFormed: an ill-formed term for each check. -/

/-- `[rax+xmm1*4]{k1}, xmm2`. -/
def ops : Operands := ⟨[], 2, 1, 1, .reg 0, .x4, .none⟩

theorem test_wellFormed_accepts : (Instr.vscatterdps128 ops).wellFormed = true := by decide

theorem test_wellFormed_refuses_k0 :
    (Instr.vscatterdps128 { ops with mask := 0 }).wellFormed = false := by decide

theorem test_wellFormed_refuses_absent_base_without_disp32 :
    (Instr.vscatterdps128 { ops with base := .absent true }).wellFormed = false ∧
    (Instr.vscatterdps128 { ops with base := .absent true, disp := .disp8 4 }).wellFormed = false := by
  decide

theorem test_wellFormed_refuses_base_101b_without_disp :
    (Instr.vscatterdps128 { ops with base := .reg 5 }).wellFormed = false ∧
    (Instr.vscatterdps128 { ops with base := .reg 13 }).wellFormed = false := by decide

theorem test_wellFormed_refuses_16_bytes :
    (Instr.vscatterdps128 { ops with legacy := List.replicate 8 (.override .fs) }).wellFormed = true ∧
    (Instr.vscatterdps128 { ops with legacy := List.replicate 9 (.override .fs) }).wellFormed = false := by
  decide

/-! Decoding: each constructor from the word of 95_test_vectors.md 1.1. -/

/-- `[rax+xmm0*1]{k1}, xmm0`. -/
def row : Operands := ⟨[], 0, 0, 1, .reg 0, .x1, .none⟩

theorem test_decode_rows_dps :
    decode .m64 (bytesOf [0x62, 0xF2, 0x7D, 0x09, 0xA2, 0x04, 0x00]) = .ok (.vscatterdps128 row) [] ∧
    decode .m64 (bytesOf [0x62, 0xF2, 0x7D, 0x29, 0xA2, 0x04, 0x00]) = .ok (.vscatterdps256 row) [] ∧
    decode .m64 (bytesOf [0x62, 0xF2, 0x7D, 0x49, 0xA2, 0x04, 0x00]) = .ok (.vscatterdps512 row) [] := by
  decide

theorem test_decode_rows_dpd :
    decode .m64 (bytesOf [0x62, 0xF2, 0xFD, 0x09, 0xA2, 0x04, 0x00]) = .ok (.vscatterdpd128 row) [] ∧
    decode .m64 (bytesOf [0x62, 0xF2, 0xFD, 0x29, 0xA2, 0x04, 0x00]) = .ok (.vscatterdpd256 row) [] ∧
    decode .m64 (bytesOf [0x62, 0xF2, 0xFD, 0x49, 0xA2, 0x04, 0x00]) = .ok (.vscatterdpd512 row) [] := by
  decide

theorem test_decode_rows_qps :
    decode .m64 (bytesOf [0x62, 0xF2, 0x7D, 0x09, 0xA3, 0x04, 0x00]) = .ok (.vscatterqps128 row) [] ∧
    decode .m64 (bytesOf [0x62, 0xF2, 0x7D, 0x29, 0xA3, 0x04, 0x00]) = .ok (.vscatterqps256 row) [] ∧
    decode .m64 (bytesOf [0x62, 0xF2, 0x7D, 0x49, 0xA3, 0x04, 0x00]) = .ok (.vscatterqps512 row) [] := by
  decide

theorem test_decode_rows_qpd :
    decode .m64 (bytesOf [0x62, 0xF2, 0xFD, 0x09, 0xA3, 0x04, 0x00]) = .ok (.vscatterqpd128 row) [] ∧
    decode .m64 (bytesOf [0x62, 0xF2, 0xFD, 0x29, 0xA3, 0x04, 0x00]) = .ok (.vscatterqpd256 row) [] ∧
    decode .m64 (bytesOf [0x62, 0xF2, 0xFD, 0x49, 0xA3, 0x04, 0x00]) = .ok (.vscatterqpd512 row) [] := by
  decide

/-- V18: base registers 5, 13, 4 and 12. -/
theorem test_decode_bases :
    decode .m64 (bytesOf [0x62, 0xF2, 0xFD, 0x2C, 0xA3, 0x4C, 0xD5, 0x00]) =
      .ok (.vscatterqpd256 ⟨[], 1, 2, 4, .reg 5, .x8, .disp8 0⟩) [] ∧
    decode .m64 (bytesOf [0x62, 0xD2, 0xFD, 0x2C, 0xA3, 0x4C, 0xD5, 0x00]) =
      .ok (.vscatterqpd256 ⟨[], 1, 2, 4, .reg 13, .x8, .disp8 0⟩) [] ∧
    decode .m64 (bytesOf [0x62, 0xF2, 0xFD, 0x2C, 0xA3, 0x0C, 0xD4]) =
      .ok (.vscatterqpd256 ⟨[], 1, 2, 4, .reg 4, .x8, .none⟩) [] ∧
    decode .m64 (bytesOf [0x62, 0xD2, 0xFD, 0x2C, 0xA3, 0x0C, 0xD4]) =
      .ok (.vscatterqpd256 ⟨[], 1, 2, 4, .reg 12, .x8, .none⟩) [] := by decide

/-- 95_test_vectors.md 2.9, and V15's register 10 in M64. -/
theorem test_decode_prefixes :
    decode .m64 (bytesOf [0x64, 0x62, 0xF2, 0x7D, 0x49, 0xA2, 0x14, 0x88]) =
      .ok (.vscatterdps512 { ops with legacy := [.override .fs] }) [] ∧
    decode .m64 (bytesOf [0x62, 0x72, 0x7D, 0x09, 0xA2, 0x14, 0x88]) =
      .ok (.vscatterdps128 { ops with src := 10 }) [] ∧
    decode .m32 (bytesOf [0x62, 0x72, 0x7D, 0x09, 0xA2, 0x14, 0x88]) = .notInFamily := by decide

/-- The word of a row of the opcode table, with k1 in the mask field: decoded, and run as the first
instruction after reset. With k0 (the row's bare word) it decodes and raises `#UD` (30_encoding.md
R82). -/
theorem test_table_word :
    decodeTableWord 48 0x62027D01A204 =
      some (.vscatterdps128 ⟨[], 24, 24, 1, .reg 8, .x1, .none⟩) ∧
    nextHas (step (State.reset.withFetchWord 48 0x62027D01A204)) (fun t => t.pc == 7#64) = true ∧
    (decodeTableWord 48 0x6202FD40A304).isSome = true ∧
    raisedHas (step (State.reset.withFetchWord 48 0x6202FD40A304)) .ud (fun t => t.pc == 0#64) = true := by
  decide

/-! Results. -/

/-- V1's registers. -/
def v1 : State :=
  launch [0x62, 0xF2, 0x7D, 0x49, 0xA2, 0x14, 0x88] |> withX 0 0x1000#64 |>
    withV 1 (packed 32 ((List.range 16).map (3 * ·))) |>
    withV 2 (packed 32 ((List.range 16).map (0x3F800000 + ·))) |> withK 1 0x8005

theorem test_V1 : nextHas (step v1) (fun t =>
    t.pc == 0x400007#64 && t.opmask 1 == 0#64 && memIs t 0x1000 [0, 0, 0x80, 0x3F] &&
    untouched t 0x1004 20 && memIs t 0x1018 [2, 0, 0x80, 0x3F] &&
    memIs t 0x10B4 [0xF, 0, 0x80, 0x3F]) = true := by decide

/-- V2: signed dword indices. -/
theorem test_V2 : nextHas (step (launch [0x62, 0xF2, 0x7D, 0x09, 0xA2, 0x14, 0x88] |>
      withX 0 0x300000000#64 |> withV 1 (packed 32 [0xFFFFFFFF, 0x80000000, 0x7FFFFFFF, 0]) |>
      withV 2 (packed 32 [0x11111111, 0x22222222, 0x33333333, 0x44444444]) |> withK 1 0xF))
    (fun t => memIs t 0x100000000 [0x22, 0x22, 0x22, 0x22] &&
      memIs t 0x2FFFFFFFC [0x11, 0x11, 0x11, 0x11, 0x44, 0x44, 0x44, 0x44] &&
      memIs t 0x4FFFFFFFC [0x33, 0x33, 0x33, 0x33] && t.opmask 1 == 0#64) = true := by decide

/-- V3: disp8*N with N = 8, a negative index, a masked-off element. -/
theorem test_V3 : nextHas (step (launch [0x62, 0xF2, 0xFD, 0x2A, 0xA2, 0x64, 0xDB, 0x08] |>
      withX 3 0x2000#64 |> withV 3 (packed 32 [0, 1, 2, 0xFFFFFFFE]) |>
      withV 4 (packed 64 [0x4000000000000000, 0x4008000000000000, 0x4010000000000000,
        0x4014000000000000]) |> withK 2 0xB))
    (fun t => memIs t 0x2040 [0, 0, 0, 0, 0, 0, 0, 0x40, 0, 0, 0, 0, 0, 0, 8, 0x40] &&
      memIs t 0x2030 [0, 0, 0, 0, 0, 0, 0x14, 0x40] && untouched t 0x2050 8 &&
      t.opmask 2 == 0#64 && t.pc == 0x400008#64) = true := by decide

/-- V4: registers above 15 and above 7. -/
theorem test_V4 : nextHas (step (launch [0x62, 0xC2, 0x7D, 0x43, 0xA3, 0x24, 0x48] |>
      withX 8 0x4000#64 |> withV 17 (packed 64 ((List.range 8).map (0x10 * ·))) |>
      withV 20 (packed 32 ((List.range 8).map (0xA0 + ·))) |> withK 3 0xFF))
    (fun t => (List.range 8).all (fun j => memIs t (0x4000 + 0x20 * j) [0xA0 + j, 0, 0, 0]) &&
      t.opmask 3 == 0#64) = true := by decide

/-- V5: no base register, disp32, a negative qword index, little-endian. -/
theorem test_V5 : nextHas (step (launch [0x62, 0xF2, 0xFD, 0x0F, 0xA3, 0x34, 0x2D, 0x78, 0x56, 0x34, 0x12] |>
      withV 5 (packed 64 [8, 0xFFFFFFFFFFFFFFF8]) |>
      withV 6 (packed 64 [0x0123456789ABCDEF, 0xFEDCBA9876543210]) |> withK 7 3))
    (fun t => memIs t 0x12345680 [0xEF, 0xCD, 0xAB, 0x89, 0x67, 0x45, 0x23, 0x01] &&
      memIs t 0x12345670 [0x10, 0x32, 0x54, 0x76, 0x98, 0xBA, 0xDC, 0xFE] &&
      t.pc == 0x40000B#64) = true := by decide

/-- V7's registers: partially overlapping elements. -/
def v7 : State :=
  launch [0x62, 0xF2, 0x7D, 0x09, 0xA2, 0x3C, 0x01] |> withX 1 0x6000#64 |>
    withV 0 (packed 32 [0, 2, 4, 1]) |>
    withV 7 (packed 32 [0x44332211, 0x88776655, 0xCCBBAA99, 0x00FFEEDD]) |> withK 1 0xF

/-- V10: 32-bit addresses in M64, upper halves of base and index ignored. -/
theorem test_V10 : nextHas (step (launch [0x67, 0x62, 0xF2, 0xFD, 0x09, 0xA3, 0x54, 0x88, 0x02] |>
      withX 0 0x7000#64 |> withV 1 (packed 64 [0xDEADBEEF00000002, 0x8000000000000000]) |>
      withV 2 (packed 64 [0x1111111111111111, 0x2222222222222222]) |> withK 1 3))
    (fun t => memIs t 0x7010 [0x22, 0x22, 0x22, 0x22, 0x22, 0x22, 0x22, 0x22, 0x11, 0x11] &&
      t.pc == 0x400009#64) = true := by decide

/-- V17(c): the farthest negative one-byte displacement, N = 8. -/
theorem test_V17c : nextHas (step (launch [0x62, 0xF2, 0xFD, 0x09, 0xA2, 0x7C, 0x01, 0x80] |>
      withX 1 0x8000#64 |> withV 7 (packed 64 [1]) |> withK 1 1))
    (fun t => memIs t 0x7C00 [1, 0, 0, 0, 0, 0, 0, 0]) = true := by decide

/-- V20: mask bits at and above KL select nothing and are cleared. -/
theorem test_V20 : nextHas (step (launch [0x62, 0xF2, 0xFD, 0x0D, 0xA2, 0x14, 0xC8] |>
      withX 0 0xA000#64 |> withV 1 (packed 32 [1, 2]) |> withV 2 (packed 64 [0xD0, 0xD1]) |>
      withK 5 0xFFFFFFFFFFFFFFFE))
    (fun t => memIs t 0xA010 [0xD1, 0, 0, 0, 0, 0, 0, 0] && untouched t 0xA008 8 &&
      untouched t 0xA018 8 && t.opmask 5 == 0#64) = true := by decide

/-- P3, second instruction: VSCATTERQPS 256, disp8*N with N = 4. -/
theorem test_P3_step2 : nextHas (step (launch [0x62, 0xF2, 0x7D, 0x2B, 0xA3, 0x74, 0xAB, 0x11] |>
      withX 3 0x2000#64 |> withV 5 (packed 64 [0, 2, 0xFFFFFFFFFFFFFFFF, 6]) |>
      withV 6 (packed 32 [0xDEADBEEF, 0xCAFEF00D, 0x12345678, 0x9ABCDEF0]) |> withK 3 0xD))
    (fun t => memIs t 0x2040 [0x78, 0x56, 0x34, 0x12, 0xEF, 0xBE, 0xAD, 0xDE] &&
      untouched t 0x204C 8 && memIs t 0x205C [0xF0, 0xDE, 0xBC, 0x9A] && t.opmask 3 == 0#64) = true := by
  decide

/-- P5, first instruction, in M32. -/
def p5 : State :=
  launch32 [0x62, 0xF2, 0x7D, 0x09, 0xA2, 0x14, 0x88] |> withX 0 0x1000#64 |>
    withV 1 (packed 32 [0x40000000, 0x80000000, 0xC0000001, 3]) |>
    withV 2 (packed 32 [0x11, 0x22, 0x33, 0x44]) |> withK 1 0xF

theorem test_P5_step1 : nextHas (step p5)
    (fun t => memIs t 0x1000 [0x22, 0, 0, 0, 0x33, 0, 0, 0] && memIs t 0x100C [0x44, 0, 0, 0] &&
      t.pc == 0x400007#64) = true := by decide

/-- The remaining forms, each with two active elements, the last one included (40_scatter.md R118 to
R129): element `j` goes to 9000H + 100H * j. -/
def spread (b2 b3 b4 iw dw kl : Nat) : State :=
  launch [0x62, 0xF2, b2, b3, b4, 0x14, 0x08] |> withX 0 0x9000#64 |>
    withV 1 (packed iw ((List.range kl).map (0x100 * ·))) |>
    withV 2 (packed dw ((List.range kl).map (0x50 + ·))) |> withK 1 (1 + 2 ^ (kl - 1))

theorem test_dpd512 : nextHas (step (spread 0xFD 0x49 0xA2 32 64 8)) (fun t =>
    memIs t 0x9000 [0x50, 0, 0, 0, 0, 0, 0, 0] && untouched t 0x9100 8 &&
    memIs t 0x9700 [0x57, 0, 0, 0, 0, 0, 0, 0] && untouched t 0x9708 1) = true := by decide

theorem test_qps128 : nextHas (step (spread 0x7D 0x09 0xA3 64 32 2)) (fun t =>
    memIs t 0x9000 [0x50, 0, 0, 0] && memIs t 0x9100 [0x51, 0, 0, 0] && untouched t 0x9104 4) = true := by
  decide

theorem test_qpd256 : nextHas (step (spread 0xFD 0x29 0xA3 64 64 4)) (fun t =>
    memIs t 0x9000 [0x50, 0, 0, 0, 0, 0, 0, 0] && untouched t 0x9100 8 &&
    memIs t 0x9300 [0x53, 0, 0, 0, 0, 0, 0, 0]) = true := by decide

theorem test_qpd512 : nextHas (step (spread 0xFD 0x49 0xA3 64 64 8)) (fun t =>
    memIs t 0x9000 [0x50, 0, 0, 0, 0, 0, 0, 0] && memIs t 0x9700 [0x57, 0, 0, 0, 0, 0, 0, 0]) = true := by
  decide

/-! Faults. -/

/-- The platform of 95_test_vectors.md 2.8: stores to 11000H..11FFFH take a page fault. -/
def badPage : PageRule := ⟨⟨0x11000, 0x11FFF⟩, false, false, false, false, none⟩

/-- `[rax+ymm1*1]{k1}, ymm2`. -/
def f1Ops : Operands := ⟨[], 2, 1, 1, .reg 0, .x1, .none⟩

/-- F1 with a mask. -/
def f1 (mask : Nat) : State :=
  launch [0x62, 0xF2, 0x7D, 0x29, 0xA2, 0x14, 0x08] |> withX 0 0x10000#64 |>
    withV 1 (packed 32 [0, 0x400, 0x800, 0x1010, 0x1400, 0xFFE, 0x2000, 0x1800]) |>
    withV 2 (packed 32 ((List.range 8).map (0x10 + ·))) |> withRules [badPage] |> withK 1 mask

/-- The fault of F1: a write to a page that is not present, at 11010H. -/
def f1Fault : Exc := .pf 2#32 0x11010#64

/-- F1 without element 6, which the implementation may or may not complete. -/
theorem test_F1 : raisedHas (step (f1 0xBF)) f1Fault (fun t =>
    memIs t 0x10000 [0x10, 0, 0, 0] && memIs t 0x10400 [0x11, 0, 0, 0] &&
    memIs t 0x10800 [0x12, 0, 0, 0] && untouched t 0x10FFE 4 && untouched t 0x11010 4 &&
    untouched t 0x11400 4 && untouched t 0x11800 4 && untouched t 0x12000 4 &&
    t.opmask 1 == 0xB8#64 && t.pc == 0x400000#64 && t.cr2 == 0x11010#64) = true := by decide

/-- F5: k0; CR0.TS; no AVX512VL. -/
theorem test_F5 :
    raisedHas (step (launch [0x62, 0xF2, 0x7D, 0x48, 0xA2, 0x14, 0x88])) .ud
      (fun t => t.pc == 0x400000#64) = true ∧
    raisedHas (step { v1 with cr0 := 9#64 }) .nm (fun t => t.opmask 1 == 0x8005#64) = true ∧
    raisedHas (step { p5 with cpuid7ebx := 0x10000#32 }) .ud (fun t => t.opmask 1 == 0xF#64) = true ∧
    nextHas (step { v1 with cpuid7ebx := 0x10000#32 }) (fun t => t.opmask 1 == 0#64) = true := by decide

/-- A data breakpoint on element 0 is delivered in lieu of element 3's fault, with RF saved as one
(60_exceptions.md R167). -/
def watched : State := f1 9 |> withWatches [⟨⟨0x10001, 0x10001⟩, .dataBreakpoint⟩]

theorem test_in_lieu : deliveredHas (step watched) (fun evs flags t =>
    evs == [.dataBreakpoint] && flags == 0x10002#32 && t.pc == 0x400000#64 && t.opmask 1 == 8#64 &&
    memIs t 0x10000 [0x10, 0, 0, 0] && t.cr2 == 0#64 && t.pending == []) = true := by decide

/-! Witnesses: decoding and the step. -/

theorem witness_DecodeOfEncode :
    (⟨[.addressSize, .override .gs], 31, 31, 7, .reg 15, .x8, .disp32 0xFFFFFFFF⟩ : Operands).encodable =
      true ∧
    ops.encodable = true ∧ extensionBitsStoredOne ops = true ∧
    ({ ops with base := .absent false, disp := .disp32 0 } : Operands).encodable = true := by decide

/-- Also for InstructionLength. -/
theorem witness_EncodeOfDecode :
    decode .m32 (bytesOf [0x26, 0x62, 0xF2, 0x7D, 0x49, 0xA2, 0x14, 0x88, 0x90]) =
      .ok (.vscatterdps512 { ops with legacy := [.override .es] }) [0x90] := by decide

theorem witness_StepRunsTheDecodedInstruction :
    pendingTraps v1 = [] ∧ v1.mode = some .m64 ∧
    decode .m64 (fetchWindow .m64 v1) = .ok (.vscatterdps512 ops) [] := by decide

theorem witness_StepRunsTheEncodedInstruction :
    (pendingTraps v1 = [] ∧ v1.mode = some .m64 ∧ (Instr.vscatterdps512 ops).wellFormed = true ∧
      (v1.ip .m64).toNat + ilen ops < addressSpace .m64 ∧
      ∀ n < (encode (.vscatterdps512 ops)).length,
        v1.mem.read ((v1.ip .m64).toNat + n) = (encode (.vscatterdps512 ops))[n]?) ∧
    (pendingTraps p5 = [] ∧ p5.mode = some .m32 ∧ extensionBitsStoredOne ops = true ∧
      ∀ n < (encode (.vscatterdps128 ops)).length,
        p5.mem.read ((p5.ip .m32).toNat + n) = (encode (.vscatterdps128 ops))[n]?) := by decide

/-- The bytes at the pc, and that the step raises `#UD` there and leaves the pc. -/
def udAt (m : Mode) (s : State) (bytes : List Nat) : Bool :=
  (pendingTraps s == []) && (s.mode == some m) && (fetchWindow m s == bytesOf bytes) &&
    raisedHas (step s) .ud (fun t => t.pc == s.pc)

/-- `rm` = 000b, 101b, and `mod` = 11b with `rm` = 001b, in M64; `rm` = 111b in M32. -/
theorem witness_ModRMWithoutVsibIsUndefined :
    udAt .m64 (launch [0x62, 0xF2, 0x7D, 0x49, 0xA2, 0x10]) [0x62, 0xF2, 0x7D, 0x49, 0xA2, 0x10] = true ∧
    udAt .m64 (launch [0x62, 0xF2, 0x7D, 0x49, 0xA2, 0x15]) [0x62, 0xF2, 0x7D, 0x49, 0xA2, 0x15] = true ∧
    udAt .m64 (launch [0x62, 0xF2, 0x7D, 0x49, 0xA2, 0xD1]) [0x62, 0xF2, 0x7D, 0x49, 0xA2, 0xD1] = true ∧
    udAt .m32 (launch32 [0x62, 0xF2, 0x7D, 0x49, 0xA3, 0x17]) [0x62, 0xF2, 0x7D, 0x49, 0xA3, 0x17] = true ∧
    inFamily 0xF2 0x7D 0xA2 = true ∧ inFamily 0xF2 0x7D 0xA3 = true ∧
    (0x10#8).extractLsb' 0 3 ≠ 4#3 ∧ (0xF2#8).extractLsb' 6 2 = 3#2 := by decide

/-- One word for each clause, in the statement's order (95_test_vectors.md 2.9). -/
theorem witness_ReservedFieldIsUndefined :
    (∀ q ∈ ([[0xF6, 0x7D, 0x49, 0x14], [0xF2, 0x79, 0x49, 0x14], [0xF2, 0x75, 0x49, 0x14],
        [0xF2, 0x7D, 0xC9, 0x14], [0xF2, 0x7D, 0x59, 0x14], [0xF2, 0x7D, 0x69, 0x14],
        [0xF2, 0x7D, 0x49, 0xD4]] : List (List Nat)),
      let code := [0x62, q.getD 0 0, q.getD 1 0, q.getD 2 0, 0xA2, q.getD 3 0]
      udAt .m64 (launch code) code = true) ∧
    (0xF6#8).extractLsb' 2 2 ≠ 0#2 ∧ (0x79#8).extractLsb' 2 1 ≠ 1#1 ∧
    (0x75#8).extractLsb' 3 4 ≠ 15#4 ∧ (0xC9#8).extractLsb' 7 1 = 1#1 ∧
    (0x59#8).extractLsb' 4 1 = 1#1 ∧ (0x69#8).extractLsb' 5 2 = 3#2 ∧
    (0xD4#8).extractLsb' 6 2 = 3#2 ∧ inFamily 0xF6 0x7D 0xA2 = true ∧ inFamily 0xF2 0x79 0xA2 = true ∧
    inFamily 0xF2 0x75 0xA2 = true := by decide

/-- `F0`, `66`, `F2`, `F3`, a REX byte in M64, and an override on both sides. -/
theorem witness_ForbiddenPrefixIsUndefined :
    (∀ b ∈ ([0xF0, 0x66, 0xF2, 0xF3, 0x40, 0x4F] : List Nat),
      (∀ x ∈ bytesOf [0x64, b, 0x67], classifyByte .m64 x ≠ .other) ∧
      udAt .m64 (launch [0x64, b, 0x67, 0x62, 0xF2, 0x7D, 0x49, 0xA2, 0x14, 0x88])
        [0x64, b, 0x67, 0x62, 0xF2, 0x7D, 0x49, 0xA2, 0x14, 0x88] = true) ∧
    udAt .m32 (launch32 [0xF0, 0x62, 0xF2, 0x7D, 0x49, 0xA2, 0x14, 0x88])
      [0xF0, 0x62, 0xF2, 0x7D, 0x49, 0xA2, 0x14, 0x88] = true ∧
    (0x4F#8).extractLsb' 4 4 = 4#4 := by decide

/-- A byte that begins no instruction of the family; in M32 a BOUND instruction, its second byte with bits
7:6 = 01b; another opcode map, `pp` and opcode. -/
theorem witness_BytesOutsideTheFamilyAreRefused :
    (classifyByte .m64 0x90 = .other ∧ refusedWith (step (launch [0x90])) .notInFamily = true) ∧
    (fetchWindow .m32 (launch32 [0x62, 0x72]) = bytesOf [0x62, 0x72] ∧ (0x72#8).extractLsb' 6 2 ≠ 3#2 ∧
      (launch32 [0x62, 0x72]).mode = some .m32 ∧
      refusedWith (step (launch32 [0x62, 0x72])) .notInFamily = true) ∧
    (∀ q ∈ ([[0xF1, 0x7D, 0xA2], [0xF2, 0x7C, 0xA2], [0xF2, 0x7D, 0xA0]] : List (List Nat)),
      let code := [0x62, q.getD 0 0, q.getD 1 0, 0x49, q.getD 2 0]
      fetchWindow .m64 (launch code) = bytesOf code ∧
      refusedWith (step (launch code)) .notInFamily = true) ∧
    pendingTraps (launch [0x90]) = [] ∧ (launch [0x90]).mode = some .m64 ∧
    (0xF1#8).extractLsb' 0 2 ≠ 2#2 ∧ (0x7C#8).extractLsb' 0 2 ≠ 1#2 := by decide

/-- The state with three bytes of an instruction just below the top of the address space. -/
def atTop : State :=
  placeAtPc { State.reset with pc := 0xFFFFFFFFFFFFFFFD#64 } (bytesOf [0x62, 0xF2, 0x7D])

/-- An instruction of 16 bytes: nine overrides, then VSCATTERDPS 512 with no displacement. -/
def tooLong : State :=
  launch (List.replicate 9 0x64 ++ [0x62, 0xF2, 0x7D, 0x49, 0xA2, 0x14, 0x88])

/-- An instruction of the family that does not end within 15 bytes; fifteen prefixes; the top of the
address space; an unwritten byte, after bytes that show the family and after bytes that do not. -/
theorem witness_FetchEndsBeforeTheInstruction :
    (decode .m64 (fetchWindow .m64 tooLong) = .needMore true ∧
      (fetchWindow .m64 tooLong).length = 15 ∧
      raisedHas (step tooLong) .gp (fun t => t.pc == 0x400000#64) = true) ∧
    (decode .m64 (fetchWindow .m64 (launch (List.replicate 15 0x67))) = .needMore false ∧
      (fetchWindow .m64 (launch (List.replicate 15 0x67))).length = 15 ∧
      refusedWith (step (launch (List.replicate 15 0x67))) .notInFamily = true) ∧
    (decode .m64 (fetchWindow .m64 atTop) = .needMore false ∧ (fetchWindow .m64 atTop).length = 3 ∧
      pendingTraps atTop = [] ∧ atTop.mode = some .m64 ∧
      refusedWith (step atTop) .instructionReachesTop = true) ∧
    (decode .m64 (fetchWindow .m64 (launch [0x62, 0xF2, 0x7D, 0x49, 0xA2])) = .needMore true ∧
      decode .m64 (fetchWindow .m64 (launch [0x62])) = .needMore false ∧
      (fetchWindow .m64 (launch [0x62])).length = 1) := by decide

/-- A trap and an interrupt pending, in 64-bit and in real-address mode; an interrupt alone does not stop
the instruction and stays pending (60_exceptions.md R164). -/
theorem witness_StepBeforeAnyInstruction :
    pendingTraps { v1 with pending := [.interrupt 32, .dataBreakpoint] } = [.dataBreakpoint] ∧
    deliveredHas (step { v1 with pending := [.interrupt 32, .dataBreakpoint] })
      (fun evs flags t => evs == [.dataBreakpoint] && flags == 2#32 && t.pending == [.interrupt 32]) =
      true ∧
    refusedWith (step { v1 with cr0 := 0#64, pending := [.dataBreakpoint] }) .modeOutOfScope = true ∧
    nextHas (step { v1 with pending := [.interrupt 32] })
      (fun t => t.pc == 0x400007#64 && t.pending == [.interrupt 32]) = true := by decide

/-! Witnesses: exceptions at decode and refusals. -/

theorem witness_MaskK0IsUndefined :
    (Instr.vscatterqpd512 { ops with mask := 0 }).operands.mask = 0#3 := by decide

/-- In M32 the prefix 67 with CS.D = 1, and none with CS.D = 0. -/
theorem witness_SixteenBitAddressesAreUndefined :
    (p5.mode = some .m32 ∧ p5.csD = true ∧
      LegacyPrefix.addressSize ∈ ({ ops with legacy := [.addressSize] } : Operands).legacy) ∧
    (({ p5 with csD := false } : State).mode = some .m32 ∧ ({ p5 with csD := false } : State).csD = false ∧
      LegacyPrefix.addressSize ∉ ops.legacy) := by decide

/-- Each flag and each enable on its own. -/
theorem witness_MissingFeatureIsUndefined :
    bitAt ({ v1 with cpuid7ebx := 0x80000000#32 } : State).cpuid7ebx 16 = false ∧
    ((Instr.vscatterdps128 ops).form.vl ≠ .v512 ∧
      bitAt ({ v1 with cpuid7ebx := 0x10000#32 } : State).cpuid7ebx 31 = false) ∧
    bitAt ({ v1 with cr4 := 0#64 } : State).cr4 18 = false ∧
    (∀ b ∈ [1, 2, 5, 6, 7],
      bitAt ({ v1 with xcr0 := 0xE7#64 &&& ~~~(BitVec.twoPow 64 b) } : State).xcr0 b = false) := by decide

theorem witness_RealAndVirtualModesAreUndefined :
    bitAt ({ v1 with cr0 := 0#64 } : State).cr0 0 = false ∧
    (bitAt ({ p5 with eflags := 0x20002#32 } : State).efer 10 = false ∧
      bitAt ({ p5 with eflags := 0x20002#32 } : State).eflags 17 = true) := by decide

theorem witness_TaskSwitchedIsDeviceNotAvailable :
    Admitted .m64 ⟨.dword, .single, .v512⟩ ops
      { ({ v1 with cr0 := 9#64 } : State) with cr0 := ({ v1 with cr0 := 9#64 } : State).cr0 &&& ~~~8#64 } ∧
    bitAt ({ v1 with cr0 := 9#64 } : State).cr0 3 = true :=
  ⟨admitted_of (by decide), by decide⟩

/-- An extension bit stored as 0 in M32; an instruction whose last byte is the top one, in each mode. -/
theorem witness_RefusedEncodings :
    (p5.mode = some .m32 ∧ ({ ops with src := 8 } : Operands).mask ≠ 0#3 ∧
      addressSize .m32 p5.csD { ops with src := 8 } ≠ .as16 ∧
      hasFeatures ⟨.dword, .single, .v128⟩ p5 = true ∧ p5.stateEnabled = true ∧
      extensionBitsStoredOne { ops with src := 8 } = false) ∧
    (addressSpace .m64 ≤ (({ v1 with pc := 0xFFFFFFFFFFFFFFF9#64 } : State).ip .m64).toNat + ilen ops ∧
      ({ v1 with pc := 0xFFFFFFFFFFFFFFF9#64 } : State).mode = some .m64 ∧
      hasFeatures ⟨.dword, .single, .v512⟩ v1 = true ∧ v1.stateEnabled = true) ∧
    (addressSpace .m32 ≤ (({ p5 with pc := 0xFFFFFFF9#64 } : State).ip .m32).toNat + ilen ops ∧
      extensionBitsStoredOne ops = true) := by decide

/-- Element 0 begins four bytes and three bytes below the top of 32-bit addresses: the second runs past it,
and is refused as such even where its memory is not write-back; element 0 with its last byte in memory that is
not write-back. -/
theorem witness_RefusedElements :
    let o : Operands := { ops with legacy := [.addressSize] }
    let low := v1 |> withX 0 0xFFFFFFFC#64 |> withK 1 1
    let high : State := { v1 |> withX 0 0xFFFFFFFD#64 |> withK 1 1 with notWriteBack := [⟨0, 2 ^ 32⟩] }
    let device : State := { v1 with notWriteBack := [⟨0x1003, 0x1003⟩] }
    nextHas (exec (.vscatterdps512 o) low) (fun _ => true) = true ∧
    (admittedB .m64 ⟨.dword, .single, .v512⟩ o high = true ∧ isActive o high 0 = true ∧
      elementCheck .m64 ⟨.dword, .single, .v512⟩ o high 0 = none ∧
      sizeLimit .as32 < (elementAddress .m64 ⟨.dword, .single, .v512⟩ o high 0).toNat + 4 ∧
      refusedWith (exec (.vscatterdps512 o) high) .elementReachesTop = true) ∧
    (admittedB .m64 ⟨.dword, .single, .v512⟩ ops device = true ∧ isActive ops device 0 = true ∧
      elementCheck .m64 ⟨.dword, .single, .v512⟩ ops device 0 = none ∧
      (∀ j < 16, isActive ops device j = true →
        (elementAddress .m64 ⟨.dword, .single, .v512⟩ ops device j).toNat + 4 ≤ sizeLimit .as64 ∧
        elementLinear .m64 ⟨.dword, .single, .v512⟩ ops device j + 4 ≤ addressSpace .m64) ∧
      elementLinear .m64 ⟨.dword, .single, .v512⟩ ops device 0 + 3 = 0x1003 ∧
      refusedWith (exec (.vscatterdps512 ops) device) .memoryTypeNotWriteBack = true) := by decide

/-! Witnesses: completion. -/

/-- A state in which every form completes: all mask bits below 16 set, indices 0, 64, 128, ... -/
def busy : State :=
  v1 |> withV 1 (packed 64 ((List.range 8).map (0x4000000040 * ·))) |> withK 1 0xFFFF

theorem witness_VscatterdpsRunsItsLoop :
    (Admitted .m64 ⟨.dword, .single, .v128⟩ ops busy ∧ Permitted .m64 ⟨.dword, .single, .v128⟩ ops busy) ∧
    (Admitted .m64 ⟨.dword, .single, .v256⟩ ops busy ∧ Permitted .m64 ⟨.dword, .single, .v256⟩ ops busy) ∧
    (Admitted .m64 ⟨.dword, .single, .v512⟩ ops busy ∧ Permitted .m64 ⟨.dword, .single, .v512⟩ ops busy) :=
  ⟨⟨admitted_of (by decide), permitted_of (by decide)⟩, ⟨admitted_of (by decide), permitted_of (by decide)⟩,
    admitted_of (by decide), permitted_of (by decide)⟩

theorem witness_VscatterdpdRunsItsLoop :
    (Admitted .m64 ⟨.dword, .double, .v128⟩ ops busy ∧ Permitted .m64 ⟨.dword, .double, .v128⟩ ops busy) ∧
    (Admitted .m64 ⟨.dword, .double, .v256⟩ ops busy ∧ Permitted .m64 ⟨.dword, .double, .v256⟩ ops busy) ∧
    (Admitted .m64 ⟨.dword, .double, .v512⟩ ops busy ∧ Permitted .m64 ⟨.dword, .double, .v512⟩ ops busy) :=
  ⟨⟨admitted_of (by decide), permitted_of (by decide)⟩, ⟨admitted_of (by decide), permitted_of (by decide)⟩,
    admitted_of (by decide), permitted_of (by decide)⟩

theorem witness_VscatterqpsRunsItsLoop :
    (Admitted .m64 ⟨.qword, .single, .v128⟩ ops busy ∧ Permitted .m64 ⟨.qword, .single, .v128⟩ ops busy) ∧
    (Admitted .m64 ⟨.qword, .single, .v256⟩ ops busy ∧ Permitted .m64 ⟨.qword, .single, .v256⟩ ops busy) ∧
    (Admitted .m64 ⟨.qword, .single, .v512⟩ ops busy ∧ Permitted .m64 ⟨.qword, .single, .v512⟩ ops busy) :=
  ⟨⟨admitted_of (by decide), permitted_of (by decide)⟩, ⟨admitted_of (by decide), permitted_of (by decide)⟩,
    admitted_of (by decide), permitted_of (by decide)⟩

theorem witness_VscatterqpdRunsItsLoop :
    (Admitted .m64 ⟨.qword, .double, .v128⟩ ops busy ∧ Permitted .m64 ⟨.qword, .double, .v128⟩ ops busy) ∧
    (Admitted .m64 ⟨.qword, .double, .v256⟩ ops busy ∧ Permitted .m64 ⟨.qword, .double, .v256⟩ ops busy) ∧
    (Admitted .m64 ⟨.qword, .double, .v512⟩ ops busy ∧ Permitted .m64 ⟨.qword, .double, .v512⟩ ops busy) :=
  ⟨⟨admitted_of (by decide), permitted_of (by decide)⟩, ⟨admitted_of (by decide), permitted_of (by decide)⟩,
    admitted_of (by decide), permitted_of (by decide)⟩

/-- The loops in M32 too. -/
theorem witness_loop_in_m32 :
    Admitted .m32 ⟨.dword, .single, .v128⟩ ops p5 ∧ Permitted .m32 ⟨.dword, .single, .v128⟩ ops p5 :=
  ⟨admitted_of (by decide), permitted_of (by decide)⟩

/-- V8: the bits below KL are 0, one above is 1, and every store would take a page fault. -/
theorem witness_EmptyMaskStoresNothing :
    let s := v1 |> withK 1 0x10000 |> withRules [⟨⟨0, 2 ^ 64⟩, true, true, false, false, none⟩]
    Admitted .m64 (Instr.vscatterdps512 ops).form (Instr.vscatterdps512 ops).operands s ∧
    ∀ j < elementCount (Instr.vscatterdps512 ops).form,
      bitAt (s.opmask (Instr.vscatterdps512 ops).operands.mask) j = false :=
  ⟨admitted_of (by decide), by decide⟩

/-- V7's state and operands. -/
def v7Ops : Operands := ⟨[], 7, 0, 1, .reg 1, .x1, .none⟩

theorem v7_completes : ∃ t, exec (.vscatterdps128 v7Ops) v7 = .next t :=
  ⟨_, exec_complete (m := .m64) (admitted_of (by decide)) (permitted_of (by decide))⟩

/-- Also for CompletionClearsTheMask and CompletionFrame; the byte 6004H of element 3, its last, is
covered by no higher element, and the frame's byte 6008H by none. -/
theorem witness_HighestElementOwnsTheByte :
    (∃ t, exec (.vscatterdps128 v7Ops) v7 = .next t) ∧ v7.mode = some .m64 ∧
    isActive v7Ops v7 3 = true ∧ isActive v7Ops v7 2 = true ∧
    (∀ j' < 4, 2 < j' → isActive v7Ops v7 j' = true →
      ¬ (elementLinear .m64 ⟨.dword, .single, .v128⟩ v7Ops v7 j' ≤
          elementLinear .m64 ⟨.dword, .single, .v128⟩ v7Ops v7 2 + 1 ∧
        elementLinear .m64 ⟨.dword, .single, .v128⟩ v7Ops v7 2 + 1 <
          elementLinear .m64 ⟨.dword, .single, .v128⟩ v7Ops v7 j' + 4)) ∧
    (∀ j < 4, isActive v7Ops v7 j = true →
      ¬ (elementLinear .m64 ⟨.dword, .single, .v128⟩ v7Ops v7 j ≤ 0x6008 ∧
        0x6008 < elementLinear .m64 ⟨.dword, .single, .v128⟩ v7Ops v7 j + 4)) :=
  ⟨v7_completes, by decide, by decide, by decide, by decide, by decide⟩

/-- Three elements, the first completely overlapped by the second (V6). -/
def v6Short : State := v7 |> withV 0 (packed 32 [0, 0, 8]) |> withK 1 7

/-- An order in which the store that may be skipped is skipped, and the others' bytes come last first. -/
theorem witness_StoreOrderDoesNotChangeMemory :
    (∃ t, exec (.vscatterdps128 v7Ops) v6Short = .next t) ∧ v6Short.mode = some .m64 ∧
    StoreOrder 4 (activeLanes .m64 ⟨.dword, .single, .v128⟩ v7Ops v6Short)
      (storeEvents 4 ((activeLanes .m64 ⟨.dword, .single, .v128⟩ v7Ops v6Short).drop 1)).reverse := by
  refine ⟨⟨_, exec_complete (m := .m64) (admitted_of (by decide)) (permitted_of (by decide))⟩, by decide,
    (activeLanes .m64 ⟨.dword, .single, .v128⟩ v7Ops v6Short).drop 1,
    ⟨List.drop_sublist _ _, by decide⟩, List.reverse_perm _, ?_⟩
  unfold overlaps
  decide

/-- U2: element 0 at 6002H is rewritten by elements 1 (6000H) and 2 (6004H) together, by neither alone. -/
def u2 : State := v7 |> withV 0 (packed 32 [2, 0, 4]) |> withK 1 7

theorem witness_skipped_store_of_two :
    (∃ t, exec (.vscatterdps128 v7Ops) u2 = .next t) ∧
    KeptStores 4 (activeLanes .m64 ⟨.dword, .single, .v128⟩ v7Ops u2)
      ((activeLanes .m64 ⟨.dword, .single, .v128⟩ v7Ops u2).drop 1) :=
  ⟨⟨_, exec_complete (m := .m64) (admitted_of (by decide)) (permitted_of (by decide))⟩,
    List.drop_sublist _ _, by decide⟩

/-- The bits above those that the form reads are changed. -/
theorem witness_UnreadVectorBitsDoNotMatter :
    let w := (v7.v.set 0 ((v7.vec 0) ||| (1#512 <<< 128))).set 7 ((v7.vec 7) ||| (1#512 <<< 511))
    (∀ b < 4 * 32, bitAt (State.vec { v7 with v := w } 0) b = bitAt (v7.vec 0) b) ∧
    (∀ b < 4 * 32, bitAt (State.vec { v7 with v := w } 7) b = bitAt (v7.vec 7) b) ∧
    bitAt (State.vec { v7 with v := w } 0) 128 = true ∧
    ∃ t, exec (.vscatterdps128 v7Ops) v7 = .next t :=
  ⟨by decide, by decide, by decide, v7_completes⟩

theorem witness_UpperMaskBitsSelectNothing :
    (∀ b < elementCount ⟨.dword, .single, .v128⟩,
      bitAt 0xFFFFFFFFFFFFFFFF#64 b = bitAt (v7.opmask v7Ops.mask) b) ∧
    ∃ t, exec (.vscatterdps128 v7Ops) v7 = .next t :=
  ⟨by decide, v7_completes⟩

/-! Witnesses: addresses and faults. -/

/-- No override; overrides that do not count in M64; the last that counts, in each mode. -/
theorem witness_SegmentSelection :
    (∀ p ∈ ([.addressSize, .override .cs] : List LegacyPrefix),
      p = .addressSize ∨ (Mode.m64 = .m64 ∧ p ≠ .override .fs ∧ p ≠ .override .gs)) ∧
    segmentOf .m64 { ops with legacy := [.addressSize, .override .cs], base := .reg 4 } = .ss ∧
    segmentOf .m64 { ops with base := .reg 12 } = .ds ∧
    segmentOf .m64 { ops with legacy := [.override .gs, .override .fs, .override .es] } = .fs ∧
    segmentOf .m32 { ops with legacy := [.override .gs, .override .fs, .override .es] } = .es := by decide

/-- Sizes of 64 and 32 bits; the sum of V5's negative index and displacement, by hand. -/
theorem witness_EffectiveAddressIsTheSum :
    addressSize .m64 false ops ≠ .as16 ∧ addressSize .m64 false { ops with legacy := [.addressSize] } ≠ .as16 ∧
    addressSize .m32 true ops ≠ .as16 ∧
    elementAddress .m64 ⟨.qword, .double, .v128⟩ ⟨[], 6, 5, 7, .absent true, .x1, .disp32 0x12345678⟩
      (v1 |> withV 5 (packed 64 [8, 0xFFFFFFFFFFFFFFF8])) 1 = 0x12345670#64 := by decide

/-- FS base 2 and SS base FFFFF000H over the address FFFFFFFFH, in each mode. -/
theorem test_segment_base :
    let flat := SegReg.flat
    let s : State := { v1 with segs :=
      ⟨flat, flat, { flat with base := 0xFFFFF000#64 }, flat, { flat with base := 2#64 }, flat⟩ }
    linearAddress .m64 s .fs 0xFFFFFFFF#64 = 0x100000001#64 ∧
    linearAddress .m32 s .fs 0xFFFFFFFF#64 = 1#64 ∧
    linearAddress .m64 s .ss 0xFFFFFFFF#64 = 0xFFFFFFFF#64 ∧
    linearAddress .m32 s .ss 0xFFFFFFFF#64 = 0xFFFFEFFF#64 := by decide

/-- Byte 2 of the element is the first non-canonical address, 0000800000000000H; bits 47 and 63
differ. -/
theorem witness_NonCanonicalElementFaults :
    let s := v1 |> withX 0 0x00007FFFFFFFFFFE#64
    let la := linearAddress .m64 s (segmentOf .m64 ops)
      (elementAddress .m64 ⟨.dword, .single, .v512⟩ ops s 0)
    2 < elementSize ⟨.dword, .single, .v512⟩ ∧
    bitAt (la + BitVec.ofNat 64 2) 47 ≠ bitAt (la + BitVec.ofNat 64 2) 63 ∧
    bitAt (la + BitVec.ofNat 64 1) 47 = bitAt (la + BitVec.ofNat 64 1) 63 ∧
    raisedHas (step s) .gp (fun t => t.opmask 1 == 0x8005#64) = true := by decide

/-- The last byte of element 0 beyond the limit of SS; a null DS; a read-only DS. -/
theorem witness_SegmentLimitFaults :
    let segs : Segments := ⟨.flat, .flat, ⟨0, 0x1002, false, true⟩, ⟨0, 0xFFFFFFFF, true, true⟩, .flat, .flat⟩
    let s : State := { p5 with segs := segs }
    let o : Operands := { ops with legacy := [.override .ss] }
    (3 < elementSize ⟨.dword, .single, .v128⟩ ∧ (s.segReg (segmentOf .m32 o)).limit.toNat <
      (low32 (elementAddress .m32 ⟨.dword, .single, .v128⟩ o s 0 + BitVec.ofNat 64 3)).toNat ∧
      ¬ (s.segReg (segmentOf .m32 o)).limit.toNat <
        (low32 (elementAddress .m32 ⟨.dword, .single, .v128⟩ o s 0 + BitVec.ofNat 64 2)).toNat) ∧
    (segmentOf .m32 ops ≠ .ss ∧ (s.segReg (segmentOf .m32 ops)).null = true) ∧
    raisedHas (exec (.vscatterdps128 o) s) .ss (fun _ => true) = true ∧
    raisedHas (exec (.vscatterdps128 ops) s) .gp (fun _ => true) = true := by decide

/-- The whole of F1: element 3 is the lowest that faults, above it 4, 5 and 7 fault and 6 does not. -/
theorem witness_FaultSuspendsTheInstruction :
    Admitted .m64 ⟨.dword, .single, .v256⟩ f1Ops (f1 0xFF) ∧
    FaultsAt .m64 ⟨.dword, .single, .v256⟩ f1Ops (f1 0xFF) 3 f1Fault ∧
    raisedEvents (f1 0xFF) 4 (doneLanes (f1 0xFF) 3
      (activeLanes .m64 ⟨.dword, .single, .v256⟩ f1Ops (f1 0xFF))) = [] := by
  refine ⟨admitted_of (by decide), faultsAt_of (by decide), ?_⟩
  have : (f1 0xFF).watches = [] := by decide
  simp [raisedEvents, this]

/-- F2 with element 3 alone. -/
theorem witness_FaultWithNothingDoneChangesNothing :
    Admitted .m64 ⟨.dword, .single, .v256⟩ f1Ops (f1 8) ∧
    FaultsAt .m64 ⟨.dword, .single, .v256⟩ f1Ops (f1 8) 3 f1Fault ∧
    ∀ n, isDone .m64 ⟨.dword, .single, .v256⟩ f1Ops (f1 8) 3 n = false := by
  refine ⟨admitted_of (by decide), faultsAt_of (by decide), fun n => ?_⟩
  by_cases hn : n < 8
  · revert n; decide
  · have : ¬ n < elementCount ⟨.dword, .single, .v256⟩ := hn
    simp [isDone, this]

/-- Also for PageFaultRecordsTheAddress, FaultLeavesThePc, NeverAlignmentCheckNorSimd. -/
theorem witness_FaultsAreDeliveredRightToLeft :
    (∃ t, exec (.vscatterdps256 f1Ops) (f1 0xBF) = .fault (.raised f1Fault t)) ∧
    ∃ t, step (f1 0xBF) = .fault (.raised f1Fault t) := by
  obtain ⟨t, h, -⟩ := of_raisedHas
    (show raisedHas (exec (.vscatterdps256 f1Ops) (f1 0xBF)) f1Fault (fun _ => true) = true by decide)
  obtain ⟨t', h', -⟩ := of_raisedHas
    (show raisedHas (step (f1 0xBF)) f1Fault (fun _ => true) = true by decide)
  exact ⟨⟨t, h⟩, t', h'⟩

theorem witness_PendingEventsAreDeliveredInLieu :
    Admitted .m64 ⟨.dword, .single, .v256⟩ f1Ops watched ∧
    FaultsAt .m64 ⟨.dword, .single, .v256⟩ f1Ops watched 3 f1Fault ∧
    raisedEvents watched 4 (doneLanes watched 3
      (activeLanes .m64 ⟨.dword, .single, .v256⟩ f1Ops watched)) ≠ [] :=
  ⟨admitted_of (by decide), faultsAt_of (by decide), by decide⟩

/-- F3: the page is made writable; no element above the fault is complete. -/
theorem witness_RestartCompletesTheScatter :
    Admitted .m64 ⟨.dword, .single, .v256⟩ f1Ops (f1 9) ∧
    FaultsAt .m64 ⟨.dword, .single, .v256⟩ f1Ops (f1 9) 3 f1Fault ∧
    (∃ t, exec (.vscatterdps256 f1Ops) (f1 9) = .fault (.raised f1Fault t) ∧
      Permitted .m64 ⟨.dword, .single, .v256⟩ f1Ops { t with pageRules := [] }) ∧
    ∀ a b, isDone .m64 ⟨.dword, .single, .v256⟩ f1Ops (f1 9) 3 a = true →
      isDone .m64 ⟨.dword, .single, .v256⟩ f1Ops (f1 9) 3 b = false → ¬ b < a := by
  refine ⟨admitted_of (by decide), faultsAt_of (by decide), ?_, fun a b ha _ hlt => ?_⟩
  · obtain ⟨t, h, hp⟩ := of_raisedHas
      (show raisedHas (exec (.vscatterdps256 f1Ops) (f1 9)) f1Fault
        (fun t => permittedB .m64 ⟨.dword, .single, .v256⟩ f1Ops { t with pageRules := [] }) = true by decide)
    exact ⟨t, h, permitted_of hp⟩
  · have h8 : a < 8 := by
      simp only [isDone, Bool.and_eq_true, decide_eq_true_eq] at ha
      exact ha.1.1
    have : ∀ a < 8, isDone .m64 ⟨.dword, .single, .v256⟩ f1Ops (f1 9) 3 a = true → a = 0 := by decide
    have := this a h8 ha
    omega

/-! Witnesses: the whole machine and the intrinsics. -/

/-- For StepFrame, MaskBitsAreOnlyCleared, StepKeepsStateOk: each kind of outcome, from a state that
meets the invariant, in both modes. -/
theorem witness_StepKeepsStateOk :
    (StateOk v1 ∧ ∃ t, step v1 = .next t) ∧ (StateOk p5 ∧ ∃ t, step p5 = .next t) ∧
    (StateOk (f1 0xBF) ∧ ∃ t, step (f1 0xBF) = .fault (.raised f1Fault t)) ∧
    (StateOk watched ∧ ∃ evs flags t, step watched = .fault (.delivered evs flags t)) := by
  have ok (s : State) (h1 : s.mem.wf = true) (h2 : s.pc.toNat < 2 ^ 32) : StateOk s := ⟨h1, fun _ => h2⟩
  obtain ⟨t1, h1, -⟩ := of_nextHas (show nextHas (step v1) (fun _ => true) = true by decide)
  obtain ⟨t2, h2, -⟩ := of_nextHas (show nextHas (step p5) (fun _ => true) = true by decide)
  obtain ⟨e, g, t4, h4, -⟩ := of_deliveredHas
    (show deliveredHas (step watched) (fun _ _ _ => true) = true by decide)
  exact ⟨⟨ok _ (by decide) (by decide), t1, h1⟩, ⟨ok _ (by decide) (by decide), t2, h2⟩,
    ⟨ok _ (by decide) (by decide), witness_FaultsAreDeliveredRightToLeft.2⟩,
    ok _ (by decide) (by decide), e, g, t4, h4⟩

/-- `_mm512_mask_i32scatter_ps` and `_mm_i64scatter_pd`. -/
theorem test_intrinsic_names :
    (⟨⟨.dword, .single, .v512⟩, true⟩ : Intrinsic).name = "_mm512_mask_i32scatter_ps" ∧
    (⟨⟨.qword, .double, .v128⟩, false⟩ : Intrinsic).name = "_mm_i64scatter_pd" ∧
    intrinsics.length = 24 := by decide

/-- 41_intrinsics.md R143 in M32: index 40000000H, scale 4 and base 1000H store at 1000H, and in M64 at
100001000H. -/
theorem test_intrinsic_address :
    (⟨.m32, .as32, 0#64⟩ : CallContext).address 0x1000#64 0x40000000#64 .x4 = 0x1000 ∧
    (⟨.m64, .as64, 0#64⟩ : CallContext).address 0x1000#64 0x40000000#64 .x4 = 0x100001000 := by decide

/-- 95_test_vectors.md 1.2: V1 as `_mm512_mask_i32scatter_ps(1000H, 8005H, vdx, a, 4)`; an intrinsic without
mask, with all bits of the mask register set, and one with it in M32. -/
theorem witness_IntrinsicIsItsForm :
    (Admitted .m64 ⟨.dword, .single, .v512⟩ ops v1 ∧ Permitted .m64 ⟨.dword, .single, .v512⟩ ops v1 ∧
      ∀ j < 16, bitAt (v1.opmask ops.mask) j =
        (⟨⟨.dword, .single, .v512⟩, true⟩ : Intrinsic).stores 0x8005 j) ∧
    (Admitted .m64 ⟨.dword, .single, .v512⟩ ops busy ∧ Permitted .m64 ⟨.dword, .single, .v512⟩ ops busy ∧
      ∀ j < 16, bitAt (busy.opmask ops.mask) j =
        (⟨⟨.dword, .single, .v512⟩, false⟩ : Intrinsic).stores 0 j) ∧
    (Admitted .m32 ⟨.dword, .single, .v128⟩ ops p5 ∧ Permitted .m32 ⟨.dword, .single, .v128⟩ ops p5 ∧
      ∀ j < 4, bitAt (p5.opmask ops.mask) j =
        (⟨⟨.dword, .single, .v128⟩, true⟩ : Intrinsic).stores 0xF j) :=
  ⟨⟨admitted_of (by decide), permitted_of (by decide), by decide⟩,
    ⟨admitted_of (by decide), permitted_of (by decide), by decide⟩,
    admitted_of (by decide), permitted_of (by decide), by decide⟩

end Sys2Proof.Tests
end

section
/-! PROOFS. The family of 10_state.md: what the stores of some lanes leave of memory, what each state
that a step leaves behind keeps of the state before it, and the four statements about it. -/

namespace Sys2Proof

open Sys2Proof.Machine

variable {m : Mode} {f : Form} {o : Operands} {s t : State}

/-! The canonical form of memory (10_state.md R18, 20_memory.md R49). -/

/-- Stores of lanes that stay below 2^64 keep the canonical form. -/
theorem wf_storeLanes {n : Nat} {mem : Memory} {ls : List Lane} (h : mem.wf = true)
    (hb : ∀ l ∈ ls, l.la.toNat + n ≤ 2 ^ 64) : (storeLanes n mem ls).wf = true := by
  refine Memory.wf_writeAll h fun w hw => ?_
  obtain ⟨l, hl, hw⟩ := List.mem_flatMap.1 hw
  obtain ⟨i, hi, rfl⟩ := mem_elementBytes.1 hw
  have := hb l hl
  show l.la.toNat + i < 2 ^ 64
  omega

theorem addressSpace_le (m : Mode) : addressSpace m ≤ 2 ^ 64 := by
  cases m <;> decide

theorem InScope.elementLinear_add_le {j : Nat} (h : InScope m f o s j) :
    elementLinear m f o s j + elementSize f ≤ 2 ^ 64 := by
  obtain ⟨-, hla, -⟩ := h
  exact hla.trans (addressSpace_le m)

/-- An element that is complete at a fault is in scope: its own check does not fault. -/
theorem FaultsAt.inScope_of_isDone {i j : Nat} {e : Exc} (h : FaultsAt m f o s j e)
    (hd : isDone m f o s j i = true) : InScope m f o s i := by
  simp only [isDone, Bool.and_eq_true, Bool.or_eq_true, decide_eq_true_eq,
    Option.isNone_iff_eq_none] at hd
  obtain ⟨⟨hi, ha⟩, hlt | ⟨⟨-, hc⟩, -⟩⟩ := hd
  · exact h.scope i hi ha (h.lowest i hlt ha)
  · exact h.scope i hi ha hc

theorem wf_complete_mem (h : s.mem.wf = true) (hp : Permitted m f o s) :
    (complete m f o s (activeLanes m f o s)).mem.wf = true := by
  refine wf_storeLanes h fun l hl => ?_
  obtain ⟨j, hj, ha, rfl⟩ := mem_activeLanes.1 hl
  exact (hp j hj ha).2.elementLinear_add_le

theorem wf_partly_mem {j : Nat} {e : Exc} (h : s.mem.wf = true) (hf : FaultsAt m f o s j e) :
    (partly f o s (doneLanes s j (activeLanes m f o s))).mem.wf = true := by
  refine wf_storeLanes h fun l hl => ?_
  obtain ⟨i, hd, rfl⟩ := mem_doneLanes.1 hl
  exact (hf.inScope_of_isDone hd).elementLinear_add_le

/-! The pc (10_state.md R11). -/

theorem low32_lt (w : Word) : (low32 w).toNat < 2 ^ 32 := by
  simp only [low32, BitVec.toNat_setWidth]
  omega

theorem nextPc_m32_lt (o : Operands) (s : State) : (nextPc .m32 o s).toNat < 2 ^ 32 :=
  low32_lt _

/-! The invariant over the states that a step can leave. -/

/-- The invariant looks at memory, the mode and the pc alone. -/
theorem StateOk.setPending (h : StateOk s) (events : List Event) : StateOk (s.setPending events) :=
  ⟨h.mem, h.pc⟩

theorem StateOk.atDelivery (h : StateOk s) (e : Exc) : StateOk (atDelivery e s) := by
  obtain h' | ⟨la, h'⟩ := atDelivery_eq s e <;> rw [h']
  · exact h
  · exact ⟨h.mem, h.pc⟩

theorem StateOk.complete (h : StateOk s) (ha : Admitted m f o s) (hp : Permitted m f o s) :
    StateOk (complete m f o s (activeLanes m f o s)) where
  mem := wf_complete_mem h.mem hp
  pc hm := by
    obtain rfl : m = .m32 := Option.some.inj (ha.mode.symm.trans hm)
    exact nextPc_m32_lt o s

theorem StateOk.partly {j : Nat} {e : Exc} (h : StateOk s) (hf : FaultsAt m f o s j e) :
    StateOk (partly f o s (doneLanes s j (activeLanes m f o s))) :=
  ⟨wf_partly_mem h.mem hf, h.pc⟩

/-- Settles O50: each state that `step_state_cases` names meets the invariant. -/
theorem stepKeepsStateOk : Obligations.StepKeepsStateOk := by
  intro s t hs h
  obtain rfl | rfl | ⟨i, m, ha, ⟨hp, rfl⟩ | ⟨j, e, hf, rfl | rfl⟩⟩ := step_state_cases h
  · exact hs
  · exact hs.setPending _
  · exact hs.complete ha hp
  · exact (hs.partly hf).atDelivery e
  · exact hs.partly hf

/-! The frame (10_state.md R20). -/

/-- `t` is `s` but for the opmask registers, the pc, CR2, the pending events and memory: the fields that a
step may change. -/
def AgreeOutsideStepData (s t : State) : Prop :=
  ∃ k pc cr2 pending mem,
    t = { s with k := k, pc := pc, cr2 := cr2, pending := pending, mem := mem }

theorem agreeOutsideStepData_atDelivery (e : Exc) (h : AgreeOutsideStepData s t) :
    AgreeOutsideStepData s (atDelivery e t) := by
  obtain ⟨k, pc, cr2, pending, mem, rfl⟩ := h
  obtain h' | ⟨la, h'⟩ := atDelivery_eq _ e <;> rw [h'] <;> exact ⟨_, _, _, _, _, rfl⟩

/-- Settles O47: no state that `step_state_cases` names differs outside the fields a step may change. -/
theorem stepFrame : Obligations.StepFrame := by
  intro s t h
  have frame : AgreeOutsideStepData s t := by
    obtain rfl | rfl | ⟨i, m, -, ⟨-, rfl⟩ | ⟨j, e, -, rfl | rfl⟩⟩ := step_state_cases h
    · exact ⟨_, _, _, _, _, rfl⟩
    · exact ⟨_, _, _, _, _, rfl⟩
    · exact ⟨_, _, _, _, _, rfl⟩
    · exact agreeOutsideStepData_atDelivery e ⟨_, _, _, _, _, rfl⟩
    · exact ⟨_, _, _, _, _, rfl⟩
  obtain ⟨k, pc, cr2, pending, mem, rfl⟩ := frame
  simp

/-! The opmask registers (10_state.md R16, 40_scatter.md R106). -/

/-- k0 is kept, and every opmask bit that is 1 in `t` is 1 in `s`. -/
def MasksOnlyCleared (s t : State) : Prop :=
  t.opmask 0#3 = s.opmask 0#3 ∧
    ∀ (r : BitVec 3) (b : Nat), bitAt (t.opmask r) b = true → bitAt (s.opmask r) b = true

theorem masksOnlyCleared_of_opmask_eq (h : ∀ r, t.opmask r = s.opmask r) : MasksOnlyCleared s t :=
  ⟨h 0#3, fun r _ hb => h r ▸ hb⟩

/-- Writing an opmask register other than k0 with some of its own bits. -/
theorem masksOnlyCleared_of_opmask_eq_setOpmask {r₀ : BitVec 3} {w : BitVec Config.maxKL}
    (h0 : r₀ ≠ 0#3) (hw : ∀ b, bitAt w b = true → bitAt (s.opmask r₀) b = true)
    (h : ∀ r, t.opmask r = (s.setOpmask r₀ w).opmask r) : MasksOnlyCleared s t := by
  refine ⟨by rw [h, State.opmask_setOpmask, if_neg h0.symm], fun r b hb => ?_⟩
  rw [h, State.opmask_setOpmask] at hb
  split at hb
  · next hr => exact hr ▸ hw b hb
  · exact hb

@[simp] theorem opmask_atDelivery (e : Exc) (s : State) (r : BitVec 3) :
    (atDelivery e s).opmask r = s.opmask r := by
  cases e <;> rfl

@[simp] theorem opmask_complete (ls : List Lane) (r : BitVec 3) :
    (complete m f o s ls).opmask r = (s.setOpmask o.mask 0#Config.maxKL).opmask r := rfl

@[simp] theorem opmask_partly (done : List Lane) (r : BitVec 3) :
    (partly f o s done).opmask r =
      (s.setOpmask o.mask (clearLanes (s.opmask o.mask) done)).opmask r := rfl

theorem masksOnlyCleared_complete (ha : Admitted m f o s) (ls : List Lane) :
    MasksOnlyCleared s (complete m f o s ls) :=
  masksOnlyCleared_of_opmask_eq_setOpmask ha.mask (by simp [bitAt]) (opmask_complete ls)

theorem masksOnlyCleared_partly (ha : Admitted m f o s) (done : List Lane) :
    MasksOnlyCleared s (partly f o s done) := by
  refine masksOnlyCleared_of_opmask_eq_setOpmask ha.mask (fun b hb => ?_) (opmask_partly done)
  rw [bitAt_clearLanes, Bool.and_eq_true] at hb
  exact hb.1

/-- Settles O49: a completed scatter zeroes its writemask, a suspended one clears bits of it, and the
writemask is not k0. -/
theorem maskBitsAreOnlyCleared : Obligations.MaskBitsAreOnlyCleared := by
  intro s t h
  obtain rfl | rfl | ⟨i, m, ha, ⟨-, rfl⟩ | ⟨j, e, -, rfl | rfl⟩⟩ := step_state_cases h
  · exact masksOnlyCleared_of_opmask_eq fun _ => rfl
  · exact masksOnlyCleared_of_opmask_eq fun _ => rfl
  · exact masksOnlyCleared_complete ha _
  · simpa [MasksOnlyCleared] using masksOnlyCleared_partly ha _
  · exact masksOnlyCleared_partly ha _

/-! Completion (40_scatter.md R100, R105). -/

/-- Without an armed watch no store raises an event. -/
theorem raisedEvents_eq_nil (h : s.watches = []) (n : Nat) (ls : List Lane) :
    raisedEvents s n ls = [] := by
  simp [raisedEvents, h]

/-- A byte outside the bytes of every active element is as before the stores. -/
theorem read_storeLanes_activeLanes {mem : Memory} {a : Nat}
    (h : ∀ j < elementCount f, isActive o s j = true →
      ¬ (elementLinear m f o s j ≤ a ∧ a < elementLinear m f o s j + elementSize f)) :
    (storeLanes (elementSize f) mem (activeLanes m f o s)).read a = mem.read a := by
  refine read_storeLanes_none fun l hl => ?_
  obtain ⟨j, hj, ha, rfl⟩ := mem_activeLanes.1 hl
  exact h j hj ha

/-- Settles O29: an instruction that completes ends in `complete` of its active lanes, which writes memory,
the writemask, the pc and the pending events alone. -/
theorem completionFrame : Obligations.CompletionFrame := by
  intro i s t h
  obtain ⟨m, ha, -, rfl⟩ := exec_next h
  have pending (hw : s.watches = []) :
      s.pending ++ raisedEvents s (elementSize i.form) (activeLanes m i.form i.operands s) =
        s.pending := by
    rw [raisedEvents_eq_nil hw, List.append_nil]
  have opmasks (r : BitVec 3) (hr : r ≠ i.operands.mask) :
      (s.setOpmask i.operands.mask 0#Config.maxKL).opmask r = s.opmask r := by
    rw [State.opmask_setOpmask, if_neg hr]
  exact ⟨rfl, rfl, rfl, rfl, rfl, rfl, rfl, rfl, rfl, rfl, rfl, rfl, rfl, rfl, rfl, rfl, pending,
    opmasks, m, ha.mode, rfl, fun a => read_storeLanes_activeLanes⟩

end Sys2Proof
end

section
/-! PROOFS. The family of 20_memory.md: linear addresses, the access checks of an element, what is refused,
the bytes that a completed scatter leaves, and the orders in which another observer may see them written. -/

namespace Sys2Proof

open Sys2Proof.Machine

variable {m : Mode} {f : Form} {o : Operands} {s t : State}

/-! Linear addresses (20_memory.md R30, 30_encoding.md R76). -/

theorem linearAddress_m64_of_counts {seg : Segment} (s : State) (ea : Word)
    (h : seg = .fs ∨ seg = .gs) :
    linearAddress .m64 s seg ea = (s.segReg seg).base + ea := by
  simp [linearAddress, linearOver, segBase, h]

theorem linearAddress_m64_of_ignored {seg : Segment} (s : State) (ea : Word)
    (h : ¬ (seg = .fs ∨ seg = .gs)) :
    linearAddress .m64 s seg ea = ea := by
  simp [linearAddress, linearOver, segBase, h]

theorem toNat_low32 (w : Word) : (low32 w).toNat = w.toNat % 2 ^ 32 := by
  simp only [low32, BitVec.toNat_setWidth]
  omega

theorem toNat_linearAddress_m32 (s : State) (seg : Segment) (ea : Word) :
    (linearAddress .m32 s seg ea).toNat = ((s.segReg seg).base.toNat + ea.toNat) % 2 ^ 32 := by
  simp only [linearAddress, linearOver, segBase, toNat_low32, BitVec.toNat_add]
  omega

/-- Settles O38: each segment's base is added in M32, and that of FS or GS alone in M64. -/
theorem linearAddressAddsTheSegmentBase : Obligations.LinearAddressAddsTheSegmentBase := by
  intro s ea
  have counted (seg : Segment) (h : seg = .fs ∨ seg = .gs) :
      (linearAddress .m64 s seg ea).toNat = ((s.segReg seg).base.toNat + ea.toNat) % 2 ^ 64 := by
    rw [linearAddress_m64_of_counts s ea h, BitVec.toNat_add]
  have m32 := fun seg => toNat_linearAddress_m32 s seg ea
  exact ⟨counted .fs (.inl rfl), counted .gs (.inr rfl),
    fun seg hfs hgs => linearAddress_m64_of_ignored s ea (not_or.2 ⟨hfs, hgs⟩),
    m32 .es, m32 .cs, m32 .ss, m32 .ds, m32 .fs, m32 .gs⟩

/-! The access check of an element (20_memory.md R33, R49). -/

/-- Bits 63 to 47 of a canonical address are all equal (20_memory.md R49). -/
theorem bitAt_eq_of_canonical {la : Word} (h : canonical la = true) {p q : Nat}
    (hp : 47 ≤ p) (hp' : p < 64) (hq : 47 ≤ q) (hq' : q < 64) : bitAt la p = bitAt la q := by
  have bit_of_top (r : Nat) (hr : 47 ≤ r) (hr' : r < 64) :
      bitAt la r = (la.extractLsb' 47 17).getLsbD (r - 47) := by
    rw [BitVec.getLsbD_extractLsb', decide_eq_true (show r - 47 < 17 by omega), Bool.true_and,
      Nat.add_sub_cancel' hr, bitAt]
  have htop : la.extractLsb' 47 17 = 0#17 ∨ la.extractLsb' 47 17 = BitVec.allOnes 17 :=
    (Bool.or_eq_true_iff.1 h).imp eq_of_beq eq_of_beq
  rw [bit_of_top p hp hp', bit_of_top q hq hq']
  rcases htop with h0 | h1
  · simp [h0]
  · rw [h1, BitVec.getLsbD_allOnes, BitVec.getLsbD_allOnes,
      decide_eq_true (show p - 47 < 17 by omega), decide_eq_true (show q - 47 < 17 by omega)]

theorem nonCanonical_of_byte {la : Word} {n b : Nat} (hb : b < n)
    (h : canonical (la + BitVec.ofNat 64 b) = false) : nonCanonical la n = true :=
  List.any_eq_true.2 ⟨b, List.mem_range.2 hb, by simp [byteAddress, h]⟩

/-- The segment-level check comes before the page rules (60_exceptions.md R163; log 7). -/
theorem elementCheck_of_nonCanonical {j : Nat}
    (h : nonCanonical (linearAddress .m64 s (segmentOf .m64 o) (elementAddress .m64 f o s j))
      (elementSize f) = true) :
    elementCheck .m64 f o s j = some (segmentFault (segmentOf .m64 o)) := by
  simp [elementCheck, storeCheck, segmentCheck, h]

/-- Settles O39: a byte with two different bits among 63 to 47 is not canonical. -/
theorem nonCanonicalElementFaults : Obligations.NonCanonicalElementFaults := by
  intro f o s j b p q hb hp hp' hq hq' hne
  rw [← segmentFault_eq]
  refine elementCheck_of_nonCanonical (nonCanonical_of_byte hb (Bool.eq_false_iff.2 fun hcan => ?_))
  exact hne (bitAt_eq_of_canonical hcan hp hp' hq hq')

/-- The fault of an element is `#SS(0)`, `#GP(0)` or a page fault (20_memory.md R36). -/
theorem elementCheck_exc {j : Nat} {e : Exc} (h : elementCheck m f o s j = some e) :
    e = .ss ∨ e = .gp ∨ ∃ code la, e = .pf code la := by
  rcases elementCheck_cases h with rfl | hpage
  · split
    · exact .inl rfl
    · exact .inr (.inl rfl)
  · obtain ⟨-, -, r, -, rfl, -, -⟩ := pageCheck_some hpage
    exact .inr (.inr ⟨_, _, rfl⟩)

/-- Every exception that an instruction raises (60_exceptions.md R150). -/
theorem exec_raised_exc {i : Instr} {e : Exc} (h : exec i s = .fault (.raised e t)) :
    e = .ud ∨ e = .nm ∨ e = .ss ∨ e = .gp ∨ ∃ code la, e = .pf code la := by
  rcases exec_raised h with ⟨rfl, -⟩ | ⟨rfl, -⟩ | ⟨m, j, -, hf, -, -⟩
  · exact .inl rfl
  · exact .inr (.inl rfl)
  · exact .inr (.inr (elementCheck_exc hf.fault))

/-- Every exception that a step raises. -/
theorem step_raised_exc {e : Exc} (h : step s = .fault (.raised e t)) :
    e = .ud ∨ e = .nm ∨ e = .ss ∨ e = .gp ∨ ∃ code la, e = .pf code la := by
  rcases step_cases s with h' | ⟨i, h'⟩ | h' | h' | ⟨a, h'⟩ | ⟨r, h'⟩ <;> rw [h'] at h
  · cases h
  · exact exec_raised_exc h
  · cases h; exact .inl rfl
  · cases h; exact .inr (.inr (.inr (.inl rfl)))
  · cases h
  · cases h

/-- Settles O22: `#AC` and `#XM` are not among the exceptions that a step raises. -/
theorem neverAlignmentCheckNorSimd : Obligations.NeverAlignmentCheckNorSimd := by
  intro s t e h
  rcases step_raised_exc h with rfl | rfl | rfl | rfl | ⟨code, la, rfl⟩ <;> simp

/-! Refused elements (20_memory.md R38, R49). -/

/-- Lanes that are refused end an admitted instruction. -/
theorem Admitted.exec_eq_refused {i : Instr} {r : Refusal} (ha : Admitted m i.form i.operands s)
    (hr : laneRefusal m i.form i.operands s (activeLanes m i.form i.operands s) = some r) :
    exec i s = .refused r := by
  rw [exec_eq_scatter, ha.scatter_eq, runScatter]
  simp only [hr]

theorem laneReachesTop_laneAt_iff {sz : AddrSize} {n j : Nat} :
    laneReachesTop m sz n (laneAt m f o s j) = true ↔
      sizeLimit sz < (elementAddress m f o s j).toNat + n ∨
        addressSpace m < elementLinear m f o s j + n := by
  rw [laneReachesTop, Bool.or_eq_true, decide_eq_true_eq, decide_eq_true_eq, laneAt_ea, laneAt_la]

theorem touches_iff {r : AddrRange} {a n : Nat} :
    r.touches a n = true ↔ ∃ b < n, r.first ≤ a + b ∧ a + b ≤ r.last := by
  simp [AddrRange.touches, AddrRange.contains]

theorem laneNotWriteBack_laneAt_iff {n j : Nat} :
    laneNotWriteBack s n (laneAt m f o s j) = true ↔
      ∃ r ∈ s.notWriteBack, ∃ b < n,
        r.first ≤ elementLinear m f o s j + b ∧ elementLinear m f o s j + b ≤ r.last := by
  simp only [laneNotWriteBack, List.any_eq_true, laneAt_la, touches_iff]

/-- Settles O20: `laneRefusal_cases` ties each refusal to its cause. -/
theorem refusedElements : Obligations.RefusedElements := by
  intro i m s ha
  simp only [← laneReachesTop_laneAt_iff, ← laneNotWriteBack_laneAt_iff]
  rcases laneRefusal_cases m i.form i.operands s with
    ⟨⟨k, hk, hpast⟩, hr⟩ | ⟨hnot, -, hr⟩ | ⟨hnone, -⟩
  · exact ⟨fun _ => ha.exec_eq_refused hr, fun hnot => absurd hpast (hnot k hk)⟩
  · exact ⟨fun ⟨j, hj, hpast⟩ => absurd hpast (hnot j hj), fun _ _ => ha.exec_eq_refused hr⟩
  · exact ⟨fun ⟨j, hj, hpast⟩ => absurd hpast (hnone j hj).1,
      fun _ ⟨j, hj, hdevice⟩ => absurd hdevice (hnone j hj).2⟩

/-! The bytes of a completed scatter (20_memory.md R31, R41). -/

theorem exec_next_mem {i : Instr} (hm : s.mode = some m) (h : exec i s = .next t) :
    t.mem = storeLanes (elementSize i.form) s.mem (activeLanes m i.form i.operands s) := by
  obtain ⟨m', ha, -, rfl⟩ := exec_next h
  obtain rfl : m = m' := Option.some.inj (hm.symm.trans ha.mode)
  rfl

/-- Byte `b` of a data element is byte `b` of its part of the register (40_scatter.md R111). -/
theorem extractLsb'_dataElement (w : Zmm) (j : Nat) {b : Nat} (hb : b < elementSize f) :
    (dataElement f.dw w j).extractLsb' (8 * b) 8 = w.extractLsb' (j * dataBits f.dw + 8 * b) 8 := by
  refine BitVec.eq_of_getLsbD_eq fun k hk => ?_
  have hbit : 8 * b + k < dataBits f.dw := by unfold elementSize at hb; omega
  cases hdw : f.dw with
  | single =>
    have hbit : 8 * b + k < 32 := by simpa only [hdw, dataBits] using hbit
    have hword : 8 * b + k < 64 := by omega
    simp [dataElement, dataBits, hk, hbit, hword, Nat.mul_comm j, Nat.add_assoc]
  | double =>
    have hbit : 8 * b + k < 64 := by simpa only [hdw, dataBits] using hbit
    simp [dataElement, dataBits, hk, hbit, Nat.mul_comm j, Nat.add_assoc]

/-- Settles O30: in ascending order the store of the highest element that covers a byte is the last one
to it. -/
theorem highestElementOwnsTheByte : Obligations.HighestElementOwnsTheByte := by
  intro i m s t j b hm h hj hact hb hlast
  have owned := read_storeLanes_last (mem := s.mem) (n := elementSize i.form)
    (a := elementLinear m i.form i.operands s j + b) (activeLanes_pairwise m i.form i.operands s)
    (mem_activeLanes.2 ⟨j, hj, hact, rfl⟩) ⟨Nat.le_add_right _ _, Nat.add_lt_add_left hb _⟩
    (fun l' hl' hlt => by
      obtain ⟨j', hj', hact', rfl⟩ := mem_activeLanes.1 hl'
      exact hlast j' hj' hlt hact')
  rw [exec_next_mem hm h, owned, laneAt_la, laneAt_data, Nat.add_sub_cancel_left,
    extractLsb'_dataElement _ _ hb]

/-! The orders of the byte writes (20_memory.md R40 to R43). -/

/-- Writes to an address that all write the byte that stands there keep it. -/
theorem read_writeAll_of_all_eq {mem : Memory} {ws : List ByteWrite} {a : Nat} {b : Byte}
    (hr : mem.read a = some b) (h : ∀ w ∈ ws, w.1 = a → w.2 = b) :
    (mem.writeAll ws).read a = some b := by
  induction ws generalizing mem with
  | nil => exact hr
  | cons w ws ih =>
    refine ih ?_ fun w' hw' => h w' (List.mem_cons_of_mem _ hw')
    rw [Memory.read_write]
    split
    · next ha => rw [h w List.mem_cons_self ha.symm]
    · exact hr

theorem mem_storeEvents {n : Nat} {ls : List Lane} {e : StoreEvent} :
    e ∈ storeEvents n ls ↔ e.lane ∈ ls ∧ e.offset < n := by
  obtain ⟨l, i⟩ := e
  simp [storeEvents]

/-- A lane with an event at an address covers it. -/
theorem covers_of_write_fst {n a : Nat} {e : StoreEvent} (ho : e.offset < n) (ha : e.write.1 = a) :
    Covers n e.lane a := by
  subst ha
  exact ⟨Nat.le_add_right _ _, Nat.add_lt_add_left ho _⟩

/-- The byte that a lane's event writes depends on its address alone. -/
theorem StoreEvent.write_snd (e : StoreEvent) :
    e.write.2 = e.lane.data.extractLsb' (8 * (e.write.1 - e.lane.la.toNat)) 8 := by
  simp [StoreEvent.write]

theorem overlaps_of_covers {n a : Nat} {l l' : Lane} (h : Covers n l a) (h' : Covers n l' a) :
    overlaps n l l' :=
  ⟨h.1.trans_lt h'.2, h'.1.trans_lt h.2⟩

/-- Lanes in ascending order are told apart by their numbers. -/
theorem lane_eq_of_j_eq {ls : List Lane} (hp : ls.Pairwise fun l l' => l.j < l'.j) {l l' : Lane}
    (hl : l ∈ ls) (hl' : l' ∈ ls) (h : l.j = l'.j) : l = l' :=
  List.inj_on_of_nodup_map ((List.pairwise_map.2 hp).imp ne_of_lt) hl hl' h

/-- The store of the highest lane that covers some byte is not skipped. -/
theorem KeptStores.mem_of_highest {n a : Nat} {ls kept : List Lane} (hk : KeptStores n ls kept)
    {l : Lane} (hl : l ∈ ls) (hc : Covers n l a) (hlast : ∀ l' ∈ ls, l.j < l'.j → ¬ Covers n l' a) :
    l ∈ kept := by
  by_contra hskip
  obtain ⟨hle, hlt⟩ := hc
  obtain ⟨l', hl', hj, hcover⟩ := hk.2 l hl hskip (a - l.la.toNat) (by omega)
  rw [Nat.add_sub_cancel' hle] at hcover
  exact hlast l' hl' hj hcover

/-- In an order of the stores that another observer may see, nothing after the event of the highest lane
that covers a byte writes another value there: an overlapping lower lane comes before it. -/
theorem read_writeAll_storeOrder_of_highest {n a : Nat} {mem : Memory} {ls : List Lane}
    {evs : List StoreEvent} (hp : ls.Pairwise fun l l' => l.j < l'.j) (h : StoreOrder n ls evs)
    {l : Lane} (hl : l ∈ ls) (hc : Covers n l a) (hlast : ∀ l' ∈ ls, l.j < l'.j → ¬ Covers n l' a) :
    (mem.writeAll (evs.map StoreEvent.write)).read a =
      some (l.data.extractLsb' (8 * (a - l.la.toNat)) 8) := by
  obtain ⟨kept, hk, hperm, hord⟩ := h
  have hoff : a - l.la.toNat < n := by have := hc.1; have := hc.2; omega
  obtain ⟨before, after, rfl⟩ := List.append_of_mem
    (hperm.mem_iff.2 (mem_storeEvents (e := ⟨l, a - l.la.toNat⟩).2
      ⟨hk.mem_of_highest hl hc hlast, hoff⟩))
  rw [List.map_append, List.map_cons, Memory.writeAll_append, Memory.writeAll_cons]
  refine read_writeAll_of_all_eq ?_ fun w hw hwa => ?_
  · rw [Memory.read_write]
    exact if_pos (Nat.add_sub_cancel' hc.1).symm
  · obtain ⟨e, he, rfl⟩ := List.mem_map.1 hw
    obtain ⟨hekept, heoff⟩ := mem_storeEvents.1 (hperm.mem_iff.1
      (List.mem_append_right _ (List.mem_cons_of_mem _ he)))
    have hels : e.lane ∈ ls := hk.1.subset hekept
    have hecov : Covers n e.lane a := covers_of_write_fst heoff hwa
    have hle : l.j ≤ e.lane.j :=
      ((List.pairwise_cons.1 (List.pairwise_append.1 hord).2.1).1 e he).resolve_right
        (not_not_intro (overlaps_of_covers hc hecov))
    have hge : ¬ l.j < e.lane.j := fun hlt => hlast e.lane hels hlt hecov
    rw [StoreEvent.write_snd, hwa, lane_eq_of_j_eq hp hels hl (by omega)]

/-- A byte that no lane covers is as before in every order. -/
theorem read_writeAll_storeOrder_of_none {n a : Nat} {mem : Memory} {ls : List Lane}
    {evs : List StoreEvent} (h : StoreOrder n ls evs) (hn : ∀ l ∈ ls, ¬ Covers n l a) :
    (mem.writeAll (evs.map StoreEvent.write)).read a = mem.read a := by
  obtain ⟨kept, hk, hperm, -⟩ := h
  refine Memory.read_writeAll_of_not_mem _ _ _ fun w hw hwa => ?_
  obtain ⟨e, he, rfl⟩ := List.mem_map.1 hw
  obtain ⟨hekept, heoff⟩ := mem_storeEvents.1 (hperm.mem_iff.1 he)
  exact hn e.lane (hk.1.subset hekept) (covers_of_write_fst heoff hwa)

/-- Settles O31: in every order a byte ends as that of the highest lane that covers it, as in the
ascending order of the processor. -/
theorem storeOrderDoesNotChangeMemory : Obligations.StoreOrderDoesNotChangeMemory := by
  intro i m s t evs hm h horder a
  have hp := activeLanes_pairwise m i.form i.operands s
  rw [exec_next_mem hm h]
  rcases last_cover (elementSize i.form) (activeLanes m i.form i.operands s) a with
    hn | ⟨l, hl, hc, hlast⟩
  · rw [read_writeAll_storeOrder_of_none horder hn, read_storeLanes_none hn]
  · rw [read_writeAll_storeOrder_of_highest hp horder hl hc hlast,
      read_storeLanes_last hp hl hc hlast]

end Sys2Proof
end

section
/-! PROOFS. The family of 30_encoding.md: what the decoder reads from the bytes of the encoder and the
other way round, what a step makes of the bytes at the pc, the causes of `#UD` and the refusals before any
element, the displacement and the segment. -/

namespace Sys2Proof

open Sys2Proof.Machine

variable {m : Mode} {legacy : List LegacyPrefix} {p0 p1 p2 op modrm vsib : Byte} {tail rest : List Byte}
  {i : Instr} {o : Operands}

/-! What the decoder reads from the bytes of the encoder. -/

theorem encodeP0_extract (o : Operands) :
    (encodeP0 o).extractLsb' 0 2 = 2#2 ∧ (encodeP0 o).extractLsb' 2 2 = 0#2 ∧
    (encodeP0 o).extractLsb' 4 1 = invBit o.src 4 ∧ (encodeP0 o).extractLsb' 5 1 = storedB o.base ∧
    (encodeP0 o).extractLsb' 6 1 = invBit o.idx 3 ∧ (encodeP0 o).extractLsb' 7 1 = invBit o.src 3 ∧
    (encodeP0 o).extractLsb' 6 2 = invBit o.src 3 ++ invBit o.idx 3 := by
  obtain ⟨hmm, h0, hR', hB, hX, hR, hRX, -⟩ :=
    p0_extract (invBit o.src 3) (invBit o.idx 3) (storedB o.base) (invBit o.src 4)
  exact ⟨hmm, h0, hR', hB, hX, hR, hRX⟩

theorem encodeP1_extract (f : Form) :
    (encodeP1 f).extractLsb' 0 2 = 1#2 ∧ (encodeP1 f).extractLsb' 2 1 = 1#1 ∧
    (encodeP1 f).extractLsb' 3 4 = 15#4 ∧ (encodeP1 f).extractLsb' 7 1 = wBit f.dw :=
  p1_extract _

theorem encodeP2_extract (f : Form) (o : Operands) :
    (encodeP2 f o).extractLsb' 7 1 = 0#1 ∧ (encodeP2 f o).extractLsb' 5 2 = llBits f.vl ∧
    (encodeP2 f o).extractLsb' 4 1 = 0#1 ∧ (encodeP2 f o).extractLsb' 3 1 = invBit o.idx 4 ∧
    (encodeP2 f o).extractLsb' 0 3 = o.mask :=
  p2_extract _ _ _

theorem encodeModRM_extract (o : Operands) :
    (encodeModRM o).extractLsb' 6 2 = modBits o.base o.disp ∧
    (encodeModRM o).extractLsb' 3 3 = o.src.extractLsb' 0 3 ∧ (encodeModRM o).extractLsb' 0 3 = 4#3 :=
  modrm_extract _ _ _

theorem encodeVsib_extract (o : Operands) :
    (encodeVsib o).extractLsb' 6 2 = ssBits o.scale ∧
    (encodeVsib o).extractLsb' 3 3 = o.idx.extractLsb' 0 3 ∧
    (encodeVsib o).extractLsb' 0 3 = baseField o.base :=
  modrm_extract _ _ _

theorem formOf_encode (f : Form) (o : Operands) :
    formOf (opcodeByte f.iw) (encodeP1 f) (encodeP2 f o) = f := by
  obtain ⟨-, -, -, hW⟩ := encodeP1_extract f
  obtain ⟨-, hll, -, -, -⟩ := encodeP2_extract f o
  rw [formOf, hW, hll, vecLenOf_llBits]
  obtain ⟨iw, dw, vl⟩ := f
  cases iw <;> cases dw <;> rfl

theorem operandsOf_encode (f : Form) (o : Operands) :
    operandsOf o.legacy (encodeP0 o) (encodeP2 f o) (encodeModRM o) (encodeVsib o) o.base o.disp = o := by
  obtain ⟨-, -, hR', -, hX, hR, -⟩ := encodeP0_extract o
  obtain ⟨-, -, -, hV', haaa⟩ := encodeP2_extract f o
  obtain ⟨-, hreg, -⟩ := encodeModRM_extract o
  obtain ⟨hss, hindex, -⟩ := encodeVsib_extract o
  simp only [operandsOf, hR', hX, hR, hV', haaa, hreg, hss, hindex, reg5_assemble, scaleOf_ssBits]

theorem inFamily_iff :
    inFamily p0 p1 op = true ↔
      p0.extractLsb' 0 2 = 2#2 ∧ p1.extractLsb' 0 2 = 1#2 ∧ (op = 0xA2#8 ∨ op = 0xA3#8) := by
  simp [inFamily, and_assoc]

theorem inFamily_encode (f : Form) (o : Operands) :
    inFamily (encodeP0 o) (encodeP1 f) (opcodeByte f.iw) = true :=
  inFamily_iff.2 ⟨(encodeP0_extract o).1, (encodeP1_extract f).1, opcodeByte_cases f.iw⟩

/-- The bytes up to ModRM hold no reserved value and VSIB is selected (30_encoding.md R83, R85). -/
theorem reservedField_eq_false_iff :
    reservedField p0 p1 p2 modrm = false ↔
      p0.extractLsb' 2 2 = 0#2 ∧ p1.extractLsb' 2 1 = 1#1 ∧ p1.extractLsb' 3 4 = 15#4 ∧
      p2.extractLsb' 7 1 = 0#1 ∧ p2.extractLsb' 4 1 = 0#1 ∧ p2.extractLsb' 5 2 ≠ 3#2 ∧
      modrm.extractLsb' 6 2 ≠ 3#2 ∧ modrm.extractLsb' 0 3 = 4#3 := by
  simp [reservedField, and_assoc]

theorem modBits_ne (base : Base) (disp : Disp) : modBits base disp ≠ 3#2 := by
  cases base <;> cases disp <;> simp [modBits]

theorem reservedField_encode (f : Form) (o : Operands) :
    reservedField (encodeP0 o) (encodeP1 f) (encodeP2 f o) (encodeModRM o) = false := by
  obtain ⟨-, h0, -⟩ := encodeP0_extract o
  obtain ⟨-, h1, hvvvv, -⟩ := encodeP1_extract f
  obtain ⟨hz, hll, hb, -, -⟩ := encodeP2_extract f o
  obtain ⟨hmod, -, hrm⟩ := encodeModRM_extract o
  exact reservedField_eq_false_iff.2 ⟨h0, h1, hvvvv, hz, hb, hll.trans_ne (llBits_ne f.vl),
    hmod.trans_ne (modBits_ne o.base o.disp), hrm⟩

/-! Base and displacement (30_encoding.md R65). -/

/-- The bytes' bit B, `mod` and VSIB `base` field are those of the operands, whose base and displacement
fit one another (30_encoding.md R65, R72). -/
structure BaseDispOf (p0 modrm vsib : Byte) (o : Operands) : Prop where
  stored : storedB o.base = p0.extractLsb' 5 1
  mod : modBits o.base o.disp = modrm.extractLsb' 6 2
  field : baseField o.base = vsib.extractLsb' 0 3
  fit : o.baseDispFit = true

theorem baseDispOf_encode (h : o.baseDispFit = true) :
    BaseDispOf (encodeP0 o) (encodeModRM o) (encodeVsib o) o := by
  obtain ⟨-, -, -, hB, -⟩ := encodeP0_extract o
  obtain ⟨hmod, -⟩ := encodeModRM_extract o
  obtain ⟨-, -, hbase⟩ := encodeVsib_extract o
  exact ⟨hB.symm, hmod.symm, hbase.symm, h⟩

theorem ofBool_bitAt (b : Byte) (n : Nat) : BitVec.ofBool (bitAt b n) = b.extractLsb' n 1 := by
  apply BitVec.eq_of_getLsbD_eq
  intro k hk
  obtain rfl : k = 0 := by omega
  simp [bitAt]

theorem ofBool_inj : ∀ a b : Bool, BitVec.ofBool a = BitVec.ofBool b → a = b := by decide

/-- The decoder finds base and displacement again. -/
theorem BaseDispOf.decodeTail_eq (h : BaseDispOf p0 modrm vsib o) (legacy : List LegacyPrefix)
    (p1 p2 op : Byte) (rest : List Byte) :
    decodeTail legacy p0 p1 p2 op modrm vsib (encodeDisp o.disp ++ rest) =
      .ok ((formOf op p1 p2).instr (operandsOf legacy p0 p2 modrm vsib o.base o.disp)) rest := by
  obtain ⟨legacy', src, idx, mask, base, scale, disp⟩ := o
  obtain ⟨stored, mod, field, fit⟩ := h
  cases base with
  | absent b =>
    have hb : bitAt p0 5 = b := ofBool_inj _ _ ((ofBool_bitAt p0 5).trans stored.symm)
    cases disp with
    | disp32 d => simp [decodeTail, encodeDisp, ← mod, ← field, modBits, baseField, disp32_assemble, hb]
    | none => cases fit
    | disp8 d => cases fit
  | reg r =>
    have hr : baseRegOf p0 vsib = r := by
      rw [baseRegOf, ← stored, ← field]
      exact reg4_assemble r
    cases disp with
    | none =>
      have hne : r.extractLsb' 0 3 ≠ 5#3 := bne_iff_ne.1 fit
      simp [decodeTail, encodeDisp, ← mod, ← field, modBits, baseField, hr, hne]
    | disp8 d => simp [decodeTail, encodeDisp, ← mod, modBits, hr]
    | disp32 d => simp [decodeTail, encodeDisp, ← mod, modBits, hr, disp32_assemble]

theorem encodeDisp_disp32Of (b0 b1 b2 b3 : Byte) :
    encodeDisp (.disp32 (disp32Of b0 b1 b2 b3)) = [b0, b1, b2, b3] := by
  obtain ⟨h0, h1, h2, h3⟩ := disp32_stored b0 b1 b2 b3
  simp only [encodeDisp, h0, h1, h2, h3]

/-- What the decoder has read after VSIB, when it answers an instruction. -/
theorem decodeTail_ok (hmod : modrm.extractLsb' 6 2 ≠ 3#2)
    (h : decodeTail legacy p0 p1 p2 op modrm vsib tail = .ok i rest) :
    ∃ base disp, BaseDispOf p0 modrm vsib (operandsOf legacy p0 p2 modrm vsib base disp) ∧
      tail = encodeDisp disp ++ rest ∧
      i = (formOf op p1 p2).instr (operandsOf legacy p0 p2 modrm vsib base disp) := by
  obtain ⟨hB, hfield⟩ := reg4_stored (p0.extractLsb' 5 1) (vsib.extractLsb' 0 3)
  simp only [decodeTail] at h
  split at h
  · next h0 =>
    split at h
    · next h5 =>
      split at h
      · next b0 b1 b2 b3 rest' =>
        cases h
        exact ⟨.absent (bitAt p0 5), .disp32 (disp32Of b0 b1 b2 b3),
          ⟨ofBool_bitAt p0 5, h0.symm, h5.symm, rfl⟩, by rw [encodeDisp_disp32Of]; rfl, rfl⟩
      · cases h
    · next h5 =>
      cases h
      exact ⟨.reg (baseRegOf p0 vsib), .none,
        ⟨hB, h0.symm, hfield, bne_iff_ne.2 (hfield.trans_ne h5)⟩, rfl, rfl⟩
  · next h0 =>
    split at h
    · next h1 =>
      split at h
      · cases h
        exact ⟨.reg (baseRegOf p0 vsib), .disp8 _, ⟨hB, h1.symm, hfield, rfl⟩, rfl, rfl⟩
      · cases h
    · next h1 =>
      have h2 : 2#2 = modrm.extractLsb' 6 2 := by
        generalize modrm.extractLsb' 6 2 = mod at *
        revert mod; decide
      split at h
      · next b0 b1 b2 b3 rest' =>
        cases h
        exact ⟨.reg (baseRegOf p0 vsib), .disp32 (disp32Of b0 b1 b2 b3), ⟨hB, h2, hfield, rfl⟩,
          by rw [encodeDisp_disp32Of]; rfl, rfl⟩
      · cases h

/-! The bytes of the encoder are those that were decoded. -/

variable {base : Base} {disp : Disp}

theorem encodeP0_operandsOf (hB : storedB base = p0.extractLsb' 5 1) (hmm : p0.extractLsb' 0 2 = 2#2)
    (h0 : p0.extractLsb' 2 2 = 0#2) :
    encodeP0 (operandsOf legacy p0 p2 modrm vsib base disp) = p0 := by
  obtain ⟨hR', hR, -⟩ := reg5_stored (p0.extractLsb' 4 1) (p0.extractLsb' 7 1) (modrm.extractLsb' 3 3)
  obtain ⟨-, hX, -⟩ := reg5_stored (p2.extractLsb' 3 1) (p0.extractLsb' 6 1) (vsib.extractLsb' 3 3)
  conv_rhs => rw [← p0_fields p0, hmm, h0]
  simp only [encodeP0, operandsOf, hB, hR', hR, hX]

theorem wBit_of_bit (w : BitVec 1) : wBit (if w = 0#1 then .single else .double) = w := by
  revert w; decide

theorem encodeP1_formOf (hpp : p1.extractLsb' 0 2 = 1#2) (h1 : p1.extractLsb' 2 1 = 1#1)
    (hvvvv : p1.extractLsb' 3 4 = 15#4) : encodeP1 (formOf op p1 p2) = p1 := by
  conv_rhs => rw [← p1_fields p1, hpp, h1, hvvvv]
  simp only [encodeP1, formOf, wBit_of_bit]

theorem encodeP2_formOf (hz : p2.extractLsb' 7 1 = 0#1) (hb : p2.extractLsb' 4 1 = 0#1)
    (hll : p2.extractLsb' 5 2 ≠ 3#2) :
    encodeP2 (formOf op p1 p2) (operandsOf legacy p0 p2 modrm vsib base disp) = p2 := by
  obtain ⟨hV', -, -⟩ := reg5_stored (p2.extractLsb' 3 1) (p0.extractLsb' 6 1) (vsib.extractLsb' 3 3)
  conv_rhs => rw [← p2_fields p2, hz, hb]
  simp only [encodeP2, formOf, operandsOf, hV', llBits_vecLenOf _ hll]

theorem opcodeByte_formOf (h : op = 0xA2#8 ∨ op = 0xA3#8) : opcodeByte (formOf op p1 p2).iw = op := by
  rcases h with rfl | rfl <;> rfl

theorem encodeModRM_operandsOf (hmod : modBits base disp = modrm.extractLsb' 6 2)
    (hrm : modrm.extractLsb' 0 3 = 4#3) :
    encodeModRM (operandsOf legacy p0 p2 modrm vsib base disp) = modrm := by
  obtain ⟨-, -, hsrc⟩ := reg5_stored (p0.extractLsb' 4 1) (p0.extractLsb' 7 1) (modrm.extractLsb' 3 3)
  conv_rhs => rw [← modrm_fields modrm, hrm]
  simp only [encodeModRM, operandsOf, hmod, hsrc]

theorem encodeVsib_operandsOf (hfield : baseField base = vsib.extractLsb' 0 3) :
    encodeVsib (operandsOf legacy p0 p2 modrm vsib base disp) = vsib := by
  obtain ⟨-, -, hidx⟩ := reg5_stored (p2.extractLsb' 3 1) (p0.extractLsb' 6 1) (vsib.extractLsb' 3 3)
  conv_rhs => rw [← modrm_fields vsib]
  simp only [encodeVsib, operandsOf, ssBits_scaleOf, hfield, hidx]

/-- The encoder writes the bytes again that the operands were read from. -/
theorem encodeCore_of_bytes (hf : inFamily p0 p1 op = true)
    (hr : reservedField p0 p1 p2 modrm = false)
    (ht : BaseDispOf p0 modrm vsib (operandsOf legacy p0 p2 modrm vsib base disp)) :
    encodeCore (formOf op p1 p2) (operandsOf legacy p0 p2 modrm vsib base disp) =
      [0x62#8, p0, p1, p2, op, modrm, vsib] ++ encodeDisp disp := by
  obtain ⟨hmm, hpp, hop⟩ := inFamily_iff.1 hf
  obtain ⟨h0, h1, hvvvv, hz, hb, hll, -, hrm⟩ := reservedField_eq_false_iff.1 hr
  have hB : storedB base = p0.extractLsb' 5 1 := ht.stored
  have hmod : modBits base disp = modrm.extractLsb' 6 2 := ht.mod
  have hfield : baseField base = vsib.extractLsb' 0 3 := ht.field
  rw [encodeCore, encodeP0_operandsOf hB hmm h0, encodeP1_formOf hpp h1 hvvvv,
    encodeP2_formOf hz hb hll, opcodeByte_formOf hop, encodeModRM_operandsOf hmod hrm,
    encodeVsib_operandsOf hfield]
  rfl

/-! The decoder from the byte `62` on (30_encoding.md R95 steps 2 to 7). -/

variable {bad : Bool} {bytes : List Byte}

/-- A forbidden byte before `62`, or a reserved value, is `#UD` as soon as ModRM is there
(30_encoding.md R83, R85, R86). -/
theorem decodeEvex_invalidOpcode (htop : m = .m32 → p0.extractLsb' 6 2 = 3#2)
    (hf : inFamily p0 p1 op = true) (h : bad = true ∨ reservedField p0 p1 p2 modrm = true) :
    decodeEvex m legacy bad (p0 :: p1 :: p2 :: op :: modrm :: rest) = .invalidOpcode := by
  have htop := not_and_not_right.2 htop
  have h : (bad || reservedField p0 p1 p2 modrm) = true := Bool.or_eq_true_iff.2 h
  simp [decodeEvex, htop, hf, h]

/-- Without a cause of `#UD` the decoder reads VSIB and what follows (30_encoding.md R95). -/
theorem decodeEvex_vsib (htop : m = .m32 → p0.extractLsb' 6 2 = 3#2)
    (hf : inFamily p0 p1 op = true) (hr : reservedField p0 p1 p2 modrm = false) :
    decodeEvex m legacy false (p0 :: p1 :: p2 :: op :: modrm :: vsib :: rest) =
      decodeTail legacy p0 p1 p2 op modrm vsib rest := by
  have htop := not_and_not_right.2 htop
  simp [decodeEvex, htop, hf, hr]

/-- The seven bytes that an answered instruction has after its prefixes (30_encoding.md R80, R95). -/
theorem decodeEvex_ok (h : decodeEvex m legacy bad bytes = .ok i rest) :
    bad = false ∧ ∃ p0 p1 p2 op modrm vsib tail,
      bytes = p0 :: p1 :: p2 :: op :: modrm :: vsib :: tail ∧ inFamily p0 p1 op = true ∧
      reservedField p0 p1 p2 modrm = false ∧
      decodeTail legacy p0 p1 p2 op modrm vsib tail = .ok i rest := by
  rcases bytes with _ | ⟨p0, _ | ⟨p1, _ | ⟨p2, _ | ⟨op, bytes⟩⟩⟩⟩ <;> simp only [decodeEvex] at h
  case nil => cases h
  all_goals
    split at h
    · cases h
  case cons.nil => cases h
  case cons.cons.nil => cases h
  case cons.cons.cons.nil => cases h
  split at h
  · cases h
  next hf =>
    rcases bytes with _ | ⟨modrm, bytes⟩
    · cases h
    simp only at h
    split at h
    · cases h
    next hr =>
      rcases bytes with _ | ⟨vsib, tail⟩
      · cases h
      obtain ⟨hbad, hr⟩ := Bool.or_eq_false_iff.1 (Bool.eq_false_iff.2 hr)
      exact ⟨hbad, p0, p1, p2, op, modrm, vsib, tail, rfl, by simpa using hf, hr, h⟩

/-- The legacy prefixes, the byte `62` and the rest of an answered instruction (30_encoding.md R95
step 1). -/
theorem decodeFrom_ok {seen : List LegacyPrefix} (h : decodeFrom m seen bad bytes = .ok i rest) :
    ∃ ps tail, bytes = ps.map legacyByte ++ 0x62#8 :: tail ∧
      decodeEvex m (seen ++ ps) bad tail = .ok i rest := by
  induction bytes generalizing seen bad with
  | nil => cases h
  | cons b bytes ih =>
    simp only [decodeFrom] at h
    split at h
    · next p hp =>
      obtain ⟨ps, tail, rfl, htail⟩ := ih h
      exact ⟨p :: ps, tail, by simp [legacyByte_of_classifyByte hp], by simpa using htail⟩
    · obtain ⟨ps, tail, rfl, htail⟩ := ih h
      obtain ⟨hbad, -⟩ := decodeEvex_ok htail
      cases hbad
    · split at h
      · next hb => exact ⟨[], bytes, by rw [hb]; rfl, by simpa using h⟩
      · cases h

/-- Settles O2: the decoder refuses every value of a bit that it does not keep in the operands. -/
theorem encodeOfDecode : Obligations.EncodeOfDecode := by
  intro m bytes rest i h
  obtain ⟨ps, tail, rfl, hevex⟩ := decodeFrom_ok h
  obtain ⟨-, p0, p1, p2, op, modrm, vsib, tail, rfl, hf, hr, htail⟩ := decodeEvex_ok hevex
  obtain ⟨-, -, -, -, -, -, hmod, -⟩ := reservedField_eq_false_iff.1 hr
  obtain ⟨base, disp, ht, rfl, rfl⟩ := decodeTail_ok hmod htail
  rw [encode, Form.form_instr, Form.operands_instr, encodeCore_of_bytes hf hr ht]
  exact ⟨by simp [operandsOf], ht.fit⟩

/-- In M32 the bits R and X of registers 0 to 7 do not spell BOUND (30_encoding.md R87). -/
theorem encodeP0_top_of_extensionBitsStoredOne (h : extensionBitsStoredOne o = true) :
    (encodeP0 o).extractLsb' 6 2 = 3#2 := by
  obtain ⟨⟨⟨⟨hR, -⟩, hX⟩, -⟩, -⟩ : (((invBit o.src 3 = 1#1 ∧ invBit o.src 4 = 1#1) ∧
      invBit o.idx 3 = 1#1) ∧ invBit o.idx 4 = 1#1) ∧ storedB o.base = 1#1 := by
    simpa [extensionBitsStoredOne] using h
  obtain ⟨-, -, -, -, -, -, hRX⟩ := encodeP0_extract o
  rw [hRX, hR, hX]
  rfl

/-- Settles O1: each field is read back from where the encoder put it. -/
theorem decodeOfEncode : Obligations.DecodeOfEncode := by
  intro m i rest henc hext
  have hfit : i.operands.baseDispFit = true := (Bool.and_eq_true_iff.1 henc).1
  have htop := fun hm => encodeP0_top_of_extensionBitsStoredOne (hext hm)
  calc decode m (encode i ++ rest)
    _ = decodeFrom m i.operands.legacy false (encodeCore i.form i.operands ++ rest) := by
      rw [decode, encode, List.append_assoc, decodeFrom_legacy, List.nil_append]
    _ = decodeTail i.operands.legacy (encodeP0 i.operands) (encodeP1 i.form)
          (encodeP2 i.form i.operands) (opcodeByte i.form.iw) (encodeModRM i.operands)
          (encodeVsib i.operands) (encodeDisp i.operands.disp ++ rest) := by
      rw [← decodeEvex_vsib htop (inFamily_encode i.form i.operands)
        (reservedField_encode i.form i.operands)]
      simp [encodeCore, decodeFrom]
    _ = .ok i rest := by
      rw [(baseDispOf_encode hfit).decodeTail_eq, formOf_encode, operandsOf_encode, Instr.instr_form]

variable {before : List Byte} {b : Byte} {s : State}

/-! The bytes of the table and of an answered instruction. -/

/-- A six-byte number is masked byte by byte. -/
theorem sixBytes_and (a b c d e f a' b' c' d' e' f' : Byte) :
    (a ++ b ++ c ++ d ++ e ++ f) &&& (a' ++ b' ++ c' ++ d' ++ e' ++ f') =
      (a &&& a') ++ (b &&& b') ++ (c &&& c') ++ (d &&& d') ++ (e &&& e') ++ (f &&& f') := by
  rw [BitVec.and_append, BitVec.and_append, BitVec.and_append, BitVec.and_append, BitVec.and_append]

theorem encodeP0_and (o : Operands) : encodeP0 o &&& 0x0F#8 = 0x02#8 := by
  have h : ∀ a b c d : BitVec 1, (a ++ b ++ c ++ d ++ 0#2 ++ 2#2 : Byte) &&& 0x0F#8 = 0x02#8 := by
    decide
  exact h _ _ _ _

theorem encodeP2_and (f : Form) (o : Operands) :
    encodeP2 f o &&& 0xF0#8 = 0#1 ++ llBits f.vl ++ 0#5 := by
  have h : ∀ (ll : BitVec 2) (v : BitVec 1) (aaa : BitVec 3),
      (0#1 ++ ll ++ 0#1 ++ v ++ aaa : Byte) &&& 0xF0#8 = 0#1 ++ ll ++ 0#5 := by decide
  exact h _ _ _

theorem encodeModRM_and (o : Operands) : encodeModRM o &&& 0x07#8 = 0x04#8 := by
  have h : ∀ (a : BitVec 2) (r : BitVec 3), (a ++ r ++ 4#3 : Byte) &&& 0x07#8 = 0x04#8 := by decide
  exact h _ _

/-- The mask of the opcode table keeps of the word what the form alone fixes (30_encoding.md R91). -/
theorem opcodeWord_and_mask (i : Instr) :
    opcodeWord i &&& 0xFF0FFFF0FF07#48 =
      0x62#8 ++ 0x02#8 ++ encodeP1 i.form ++ (0#1 ++ llBits i.form.vl ++ 0#5) ++
        opcodeByte i.form.iw ++ 0x04#8 := by
  have hFF : ∀ x : Byte, x &&& 0xFF#8 = x := fun _ => BitVec.and_allOnes
  refine (sixBytes_and 0x62#8 (encodeP0 i.operands) (encodeP1 i.form) (encodeP2 i.form i.operands)
    (opcodeByte i.form.iw) (encodeModRM i.operands) 0xFF#8 0x0F#8 0xFF#8 0xF0#8 0xFF#8 0x07#8).trans ?_
  rw [encodeP0_and, encodeP2_and, encodeModRM_and, hFF, hFF, hFF]

/-- Settles O4: what the mask leaves depends on the form alone. -/
theorem opcodeWordsMatchTheTable : Obligations.OpcodeWordsMatchTheTable := by
  intro o
  simp only [opcodeWord_and_mask, Instr.form, encodeP1, wBit, llBits, opcodeByte]
  decide

/-- Settles O5: the bytes are the encoding of the instruction, whose length is `ilen`. -/
theorem instructionLength : Obligations.InstructionLength := by
  intro m bytes rest i h
  obtain ⟨rfl, -⟩ := encodeOfDecode m bytes rest i h
  obtain ⟨hlen, -⟩ := Laws.EncodedLength.of_operands i
  refine ⟨by rw [List.length_append, hlen], fun hlegacy => ?_⟩
  rw [ilen, hlegacy]
  cases i.operands.disp with
  | none => exact .inl rfl
  | disp8 d => exact .inr (.inl rfl)
  | disp32 d => exact .inr (.inr rfl)

/-- Settles O3: each of the four byte strings is decoded by evaluation. -/
theorem specWordsDecode : Obligations.SpecWordsDecode := by
  unfold Obligations.SpecWordsDecode
  decide

/-! A step on bytes that are an instruction. -/

/-- Settles O6: this is the answer `ok` in `step_eq`. -/
theorem stepRunsTheDecodedInstruction : Obligations.StepRunsTheDecodedInstruction := by
  intro s m i rest hp hm hd
  rw [step_eq hp hm, hd]

/-- Settles O7: the fetch sees the encoding, which decodes to the instruction. -/
theorem stepRunsTheEncodedInstruction : Obligations.StepRunsTheEncodedInstruction := by
  intro s m i hp hm hwf hext htop hread
  obtain ⟨henc, -⟩ := Bool.and_eq_true_iff.1 hwf
  obtain ⟨-, hfits⟩ := Bool.and_eq_true_iff.1 henc
  obtain ⟨hlen, -⟩ := Laws.EncodedLength.of_operands i
  obtain ⟨rest, hw⟩ := fetchBytes_of_read s.mem (addressSpace m) (encode i) (s.ip m).toNat
    Config.maxInstrBytes (hlen.trans_le (of_decide_eq_true hfits)) (by rwa [hlen]) hread
  refine stepRunsTheDecodedInstruction s m i rest hp hm ?_
  rw [fetchWindow, hw]
  exact decodeOfEncode m i rest henc hext

/-! A step on bytes that are none. -/

/-- The decoder from the first byte after the prefixes on (30_encoding.md R95 step 1). -/
theorem decode_before (hb : ∀ b ∈ before, classifyByte m b ≠ .other) (bytes : List Byte) :
    ∃ seen bad, decode m (before ++ bytes) = decodeFrom m seen bad bytes ∧
      (bad = true ↔ ∃ b ∈ before, classifyByte m b = .forbidden) := by
  simpa [decode] using decodeFrom_before m before hb [] false bytes

/-- The decoder from the byte `62` on. -/
theorem decode_before_evex (hb : ∀ b ∈ before, classifyByte m b ≠ .other) (bytes : List Byte) :
    ∃ seen bad, decode m (before ++ 0x62#8 :: bytes) = decodeEvex m seen bad bytes ∧
      (bad = true ↔ ∃ b ∈ before, classifyByte m b = .forbidden) := by
  simpa [decodeFrom] using decode_before hb (0x62#8 :: bytes)

/-- The causes of `#UD` that the bytes up to ModRM show (30_encoding.md R83, R85, R86). -/
theorem decode_invalidOpcode (hb : ∀ b ∈ before, classifyByte m b ≠ .other)
    (htop : m = .m32 → p0.extractLsb' 6 2 = 3#2) (hf : inFamily p0 p1 op = true)
    (h : (∃ b ∈ before, classifyByte m b = .forbidden) ∨ reservedField p0 p1 p2 modrm = true) :
    decode m (before ++ [0x62#8, p0, p1, p2, op, modrm] ++ rest) = .invalidOpcode := by
  obtain ⟨seen, bad, hd, hbad⟩ :=
    decode_before_evex hb ([p0, p1, p2, op, modrm] ++ rest)
  rw [List.append_assoc]
  exact hd.trans (decodeEvex_invalidOpcode htop hf (h.imp_left hbad.2))

theorem step_eq_ud (hp : pendingTraps s = []) (hm : s.mode = some m)
    (hd : decode m (fetchWindow m s) = .invalidOpcode) : step s = .fault (.raised .ud s) := by
  rw [step_eq hp hm, hd]
  rfl

theorem step_eq_notInFamily (hp : pendingTraps s = []) (hm : s.mode = some m)
    (hd : decode m (fetchWindow m s) = .notInFamily) : step s = .refused .notInFamily := by
  rw [step_eq hp hm, hd]

/-- Settles O8: `reservedField` holds for every `rm` but 100b. -/
theorem modRMWithoutVsibIsUndefined : Obligations.ModRMWithoutVsibIsUndefined := by
  intro s m before p0 p1 p2 op modrm rest hp hm hb hw htop hf hrm
  have hr : reservedField p0 p1 p2 modrm = true := by simp [reservedField, hrm]
  refine step_eq_ud hp hm ?_
  rw [hw, decode_invalidOpcode hb htop hf (.inr hr)]

/-- Settles O9: each of the values makes `reservedField` hold. -/
theorem reservedFieldIsUndefined : Obligations.ReservedFieldIsUndefined := by
  intro s m before p0 p1 p2 op modrm rest hp hm hb hw htop hf hres
  have hr : reservedField p0 p1 p2 modrm = true := by
    rcases hres with h | h | h | h | h | h | h <;> simp [reservedField, h]
  refine step_eq_ud hp hm ?_
  rw [hw, decode_invalidOpcode hb htop hf (.inr hr)]

set_option maxRecDepth 20000 in
theorem classifyByte_rex : ∀ b : Byte, b.extractLsb' 4 4 = 4#4 → classifyByte .m64 b = .forbidden := by
  decide

/-- The prefixes of 30_encoding.md R86. -/
theorem classifyByte_forbidden
    (h : b = 0xF0#8 ∨ b = 0x66#8 ∨ b = 0xF2#8 ∨ b = 0xF3#8 ∨ (m = .m64 ∧ b.extractLsb' 4 4 = 4#4)) :
    classifyByte m b = .forbidden := by
  rcases h with rfl | rfl | rfl | rfl | ⟨rfl, h⟩
  · rfl
  · rfl
  · rfl
  · rfl
  · exact classifyByte_rex b h

/-- Settles O10: the decoder remembers the forbidden byte until ModRM. -/
theorem forbiddenPrefixIsUndefined : Obligations.ForbiddenPrefixIsUndefined := by
  intro s m before b p0 p1 p2 op modrm rest hp hm hb hmem hbad hw htop hf
  refine step_eq_ud hp hm ?_
  rw [hw, decode_invalidOpcode hb htop hf (.inl ⟨b, hmem, classifyByte_forbidden hbad⟩)]

/-- BOUND in M32 (30_encoding.md R87). -/
theorem decodeEvex_bound (seen : List LegacyPrefix) (bad : Bool) (rest : List Byte)
    (h : p0.extractLsb' 6 2 ≠ 3#2) : decodeEvex .m32 seen bad (p0 :: rest) = .notInFamily := by
  simp [decodeEvex, h]

/-- Another opcode map, `pp` or opcode (30_encoding.md R90). -/
theorem decodeEvex_notInFamily (seen : List LegacyPrefix) (bad : Bool) (rest : List Byte)
    (h : inFamily p0 p1 op = false) :
    decodeEvex m seen bad (p0 :: p1 :: p2 :: op :: rest) = .notInFamily := by
  simp [decodeEvex, h]

/-- Settles O11: in each case the decoder answers `notInFamily` after the prefixes. -/
theorem bytesOutsideTheFamilyAreRefused : Obligations.BytesOutsideTheFamilyAreRefused := by
  intro s m before rest hp hm hb
  refine ⟨fun b hw hother hne => ?_, fun p0 hw hm32 hbound => ?_, fun p0 p1 p2 op hw hfields => ?_⟩ <;>
    refine step_eq_notInFamily hp hm ?_ <;> rw [hw, List.append_assoc]
  · obtain ⟨seen, bad, hd, -⟩ := decode_before hb ([b] ++ rest)
    rw [hd]
    simp [decodeFrom, hother, hne]
  · obtain ⟨seen, bad, hd, -⟩ := decode_before_evex hb ([p0] ++ rest)
    subst hm32
    exact hd.trans (decodeEvex_bound seen bad rest hbound)
  · have hf : inFamily p0 p1 op = false := by
      rw [Bool.eq_false_iff, Ne, inFamily_iff]
      tauto
    obtain ⟨seen, bad, hd, -⟩ := decode_before_evex hb ([p0, p1, p2, op] ++ rest)
    exact hd.trans (decodeEvex_notInFamily seen bad rest hf)

/-- Settles O12: `fetchShort` distinguishes the four cases, and the fetch has stopped at the top or at a
byte without a value. -/
theorem fetchEndsBeforeTheInstruction : Obligations.FetchEndsBeforeTheInstruction := by
  intro s m shown hp hm hd
  have hstep : step s = fetchShort m shown s := by rw [step_eq hp hm, hd]
  obtain ⟨-, hstop⟩ := fetchBytes_stops s.mem (addressSpace m) Config.maxInstrBytes (s.ip m).toNat
  refine ⟨decode_needMore hd, fun hlen hs => ?_, fun hlen hs => ?_, fun hlen htop => ?_,
    fun hlen htop => ⟨hstop hlen htop, ?_⟩⟩ <;> rw [hstep, fetchShort]
  · simp [hlen, hs, raise, atDelivery]
  · simp [hlen, hs]
  · simp [hlen.ne, htop]
  · simp [hlen.ne, htop]

/-! The causes of `#UD` that execution finds (30_encoding.md R82, R84, R88). -/

theorem undefinedOpcode_iff {f : Form} {o : Operands} :
    undefinedOpcode m f o s = true ↔
      o.mask = 0#3 ∨ addressSize m s.csD o = .as16 ∨ hasFeatures f s = false ∨
        s.stateEnabled = false := by
  simp [undefinedOpcode, or_assoc]

/-- A cause of `#UD` comes before everything else (60_exceptions.md R161). -/
theorem exec_eq_ud (h : ∀ m, s.mode = some m → undefinedOpcode m i.form i.operands s = true) :
    exec i s = .fault (.raised .ud s) := by
  rw [exec_eq_scatter, scatter]
  cases hm : s.mode with
  | none => rfl
  | some m => exact if_pos (h m hm)

/-- Settles O14: k0 is the first cause in `undefinedOpcode`. -/
theorem maskK0IsUndefined : Obligations.MaskK0IsUndefined := fun _ _ hk0 =>
  exec_eq_ud fun _ _ => undefinedOpcode_iff.2 (.inl hk0)

theorem addressSize_m32_eq_as16 {csD : Bool} {o : Operands}
    (h : (csD = true ∧ LegacyPrefix.addressSize ∈ o.legacy) ∨
      (csD = false ∧ LegacyPrefix.addressSize ∉ o.legacy)) : addressSize .m32 csD o = .as16 := by
  rcases h with ⟨rfl, h⟩ | ⟨rfl, h⟩ <;> simp [addressSize, hasAddressSizePrefix, h]

/-- Settles O15: the address size is 16 bits in both cases. -/
theorem sixteenBitAddressesAreUndefined : Obligations.SixteenBitAddressesAreUndefined := by
  intro i s hm32 h
  refine exec_eq_ud fun m hm => undefinedOpcode_iff.2 (.inr (.inl ?_))
  obtain rfl : Mode.m32 = m := Option.some.inj (hm32.symm.trans hm)
  exact addressSize_m32_eq_as16 h

/-- Settles O16: one flag or enable bit that is 0 makes `hasFeatures` or `stateEnabled` false. -/
theorem missingFeatureIsUndefined : Obligations.MissingFeatureIsUndefined := by
  intro i s h
  refine exec_eq_ud fun m _ => undefinedOpcode_iff.2 (.inr (.inr ?_))
  rcases h with hF | ⟨hvl, hVL⟩ | hosxsave | ⟨b, hb, hxcr0⟩
  · exact .inl (by simp [hasFeatures, State.hasAvx512f, hF])
  · exact .inl (by simp [hasFeatures, State.hasAvx512vl, hvl, hVL])
  · exact .inr (by simp [State.stateEnabled, hosxsave])
  · refine .inr ?_
    simp only [List.mem_cons, List.not_mem_nil, or_false] at hb
    rcases hb with rfl | rfl | rfl | rfl | rfl <;> simp [State.stateEnabled, hxcr0]

/-- Settles O19: without a cause of `#UD` the two refusals are the next checks of `scatter`. -/
theorem refusedEncodings : Obligations.RefusedEncodings := by
  intro i m s hm hmask hsize hfeat hen
  have hud : ¬ undefinedOpcode m i.form i.operands s = true := by
    simp [undefinedOpcode_iff, hmask, hsize, hfeat, hen]
  refine ⟨fun hm32 hext => ?_, fun hext htop => ?_⟩ <;> rw [exec_eq_scatter, scatter] <;>
    simp only [hm, if_neg hud]
  · exact if_pos ⟨hm32, by simp [hext]⟩
  · rw [if_neg fun h => h.2 (hext h.1), if_pos (by simpa [instructionReachesTop] using htop)]

/-! Displacement and segment (30_encoding.md R76, R77). -/

/-- The product of a one-byte displacement and an element's size is exact. -/
theorem toInt_dispValue_disp8 (f : Form) (d : BitVec 8) :
    (dispValue f (.disp8 d)).toInt = d.toInt * elementSize f := by
  have hlo := d.le_toInt
  have hhi := d.toInt_lt
  have hsize : (BitVec.ofNat 64 (elementSize f)).toInt = elementSize f := by
    rcases elementSize_eq f with h | h <;> rw [h] <;> rfl
  rw [dispValue, BitVec.toInt_mul, BitVec.toInt_signExtend_of_le (by decide), hsize]
  apply Int.bmod_eq_of_le <;> rcases elementSize_eq f with h | h <;> rw [h] <;> omega

theorem toInt_dispValue_disp32 (f : Form) (d : BitVec 32) :
    (dispValue f (.disp32 d)).toInt = d.toInt :=
  BitVec.toInt_signExtend_of_le (by decide)

/-- Settles O35: an element has 4 bytes in the single-precision forms and 8 in the double-precision
ones. -/
theorem displacementScaling : Obligations.DisplacementScaling := by
  intro iw vl d d'
  have h4 : elementSize ⟨iw, .single, vl⟩ = 4 := by simp [elementSize, dataBits]
  have h8 : elementSize ⟨iw, .double, vl⟩ = 8 := by simp [elementSize, dataBits]
  refine ⟨?_, ?_, fun dw => toInt_dispValue_disp32 _ d'⟩
  · rw [toInt_dispValue_disp8, h4, Nat.cast_ofNat]
  · rw [toInt_dispValue_disp8, h8, Nat.cast_ofNat]

theorem countingOverride_eq_none {p : LegacyPrefix}
    (h : p = .addressSize ∨ (m = .m64 ∧ p ≠ .override .fs ∧ p ≠ .override .gs)) :
    countingOverride m p = none := by
  rcases h with rfl | ⟨rfl, hfs, hgs⟩
  · rfl
  · cases p with
    | addressSize => rfl
    | override seg => simpa [countingOverride] using And.intro hfs hgs

theorem filterMap_countingOverride_eq_nil {ps : List LegacyPrefix}
    (h : ∀ p ∈ ps, p = .addressSize ∨ (m = .m64 ∧ p ≠ .override .fs ∧ p ≠ .override .gs)) :
    ps.filterMap (countingOverride m) = [] :=
  List.filterMap_eq_nil_iff.2 fun p hp => countingOverride_eq_none (h p hp)

theorem defaultSegment_eq (base : Base) :
    defaultSegment base = if base = .reg 4#4 ∨ base = .reg 5#4 then .ss else .ds := by
  cases base <;> simp [defaultSegment]

/-- Settles O36: the overrides that do not count drop out of the list whose last element is taken. -/
theorem segmentSelection : Obligations.SegmentSelection := by
  intro m o before after seg
  refine ⟨fun hnone => ?_, fun hlegacy hcounts hafter => ?_⟩ <;> rw [segmentOf]
  · rw [filterMap_countingOverride_eq_nil hnone, ← defaultSegment_eq]
    rfl
  · have hseg : countingOverride m (.override seg) = some seg := if_pos hcounts
    rw [hlegacy, List.filterMap_append, List.filterMap_append, filterMap_countingOverride_eq_nil hafter]
    simp [hseg]

end Sys2Proof
end

section
/-! PROOFS. The family of 40_scatter.md: effective addresses, the source's loops, what completion depends on,
and what a suspension leaves behind. -/

namespace Sys2Proof

open Sys2Proof.Machine

variable {m : Mode} {f : Form} {o : Operands} {s t : State}

/-! Effective addresses (40_scatter.md R101). -/

theorem setWidth_low32 (w : Word) : (low32 w).setWidth 32 = w.setWidth 32 := by
  rw [low32, BitVec.setWidth_setWidth_of_le _ (by decide), BitVec.setWidth_eq]

/-- Settles O34: truncation to 32 bits commutes with sum and product. -/
theorem thirtyTwoBitAddressesUseLowHalves : Obligations.ThirtyTwoBitAddressesUseLowHalves := by
  intro base index scale disp
  refine ⟨?_, low32_lt _⟩
  have h32 : 32 ≤ 64 := by decide
  simp only [effectiveAddress, truncTo]
  rw [low32, low32]
  simp only [BitVec.setWidth_add _ _ h32, BitVec.setWidth_mul _ _ h32, setWidth_low32]

theorem toNat_truncTo (sz : AddrSize) (w : Word) : (truncTo sz w).toNat = w.toNat % sizeLimit sz := by
  cases sz with
  | as16 => simp only [truncTo, sizeLimit, BitVec.toNat_setWidth]; omega
  | as32 => exact toNat_low32 w
  | as64 => exact (Nat.mod_eq_of_lt w.isLt).symm

theorem sizeLimit_dvd (sz : AddrSize) : sizeLimit sz ∣ 2 ^ 64 := by
  cases sz <;> exact pow_dvd_pow 2 (by decide)

/-- What is taken modulo `2^64` may be taken modulo `2^AS` afterwards. -/
theorem toNat_ofInt_emod_sizeLimit (sz : AddrSize) (x : Int) :
    (((BitVec.ofInt 64 x).toNat % sizeLimit sz : Nat) : Int) = x % sizeLimit sz := by
  rw [Int.natCast_emod, BitVec.toNat_ofInt, Int.toNat_of_nonneg (Int.emod_nonneg _ (by decide)),
    Int.emod_emod_of_dvd _ (Int.natCast_dvd_natCast.2 (sizeLimit_dvd sz))]

/-- The effective address is the integer sum of its parts modulo `2^AS`. -/
theorem toNat_effectiveAddress (sz : AddrSize) (base index scale disp : Word) :
    ((effectiveAddress sz base index scale disp).toNat : Int) =
      (base.toNat + index.toInt * scale.toInt + disp.toInt) % sizeLimit sz := by
  rw [← toNat_ofInt_emod_sizeLimit, BitVec.ofInt_add, BitVec.ofInt_add, BitVec.ofInt_mul,
    BitVec.ofInt_toInt, BitVec.ofInt_toInt, BitVec.ofInt_toInt, BitVec.ofInt_natCast,
    BitVec.ofNat_toNat, BitVec.setWidth_eq, effectiveAddress, toNat_truncTo]

theorem sizeLimit_addressSize {csD : Bool} (h : addressSize m csD o ≠ .as16) :
    (sizeLimit (addressSize m csD o) : Int) =
      if m = .m64 ∧ LegacyPrefix.addressSize ∉ o.legacy then 2 ^ 64 else 2 ^ 32 := by
  cases m with
  | m64 =>
    by_cases h67 : LegacyPrefix.addressSize ∈ o.legacy <;>
      simp [addressSize, hasAddressSizePrefix, h67, sizeLimit]
  | m32 =>
    have h32 : addressSize .m32 csD o = .as32 := if_neg fun h16 => h (if_pos h16)
    rw [h32, if_neg (by simp)]
    rfl

/-- Settles O37: each part of the address is read as the integer it stands for. -/
theorem effectiveAddressIsTheSum : Obligations.EffectiveAddressIsTheSum := by
  intro m f o s j hsize
  rw [elementAddress, toNat_effectiveAddress, sizeLimit_addressSize hsize]
  congr 3
  · rw [baseValue]; cases o.base <;> rfl
  · congr 1
    · cases f.iw with
      | dword => exact BitVec.toInt_signExtend_of_le (by decide)
      | qword => rfl
    · cases o.scale <;> rfl
  · cases o.disp with
    | none => rfl
    | disp8 d =>
      refine (toInt_dispValue_disp8 f d).trans (congrArg (d.toInt * ·) ?_)
      unfold elementSize
      cases f.dw <;> rfl
    | disp32 d => exact toInt_dispValue_disp32 f d

/-! The source's loops (40_scatter.md R114 to R117). One loop over the elements is the model's completion; the
four loops of the source are that loop with the element's bit offsets written as `j * 32` and `j * 64`. -/

/-- Stores of some lanes, one after another (20_memory.md R48). -/
theorem storeLanes_eq_foldl (n : Nat) (mem : Memory) (ls : List Lane) :
    storeLanes n mem ls = ls.foldl (fun mem l => mem.store l.la.toNat n l.data) mem :=
  List.foldl_flatMap

theorem clearLanes_append (w : BitVec Config.maxKL) (ls ls' : List Lane) :
    clearLanes w (ls ++ ls') = clearLanes (clearLanes w ls) ls' :=
  List.foldl_append

/-- The active lanes below `kl`. -/
def activeBelow (m : Mode) (f : Form) (o : Operands) (s : State) (kl : Nat) : List Lane :=
  ((List.range kl).filter (isActive o s)).map (laneAt m f o s)

theorem activeBelow_elementCount : activeBelow m f o s (elementCount f) = activeLanes m f o s := rfl

theorem mem_activeBelow {kl : Nat} {l : Lane} :
    l ∈ activeBelow m f o s kl ↔ ∃ j < kl, isActive o s j = true ∧ laneAt m f o s j = l := by
  simp [activeBelow, and_assoc]

theorem activeBelow_succ (kl : Nat) :
    activeBelow m f o s (kl + 1) =
      activeBelow m f o s kl ++ (if isActive o s kl = true then [laneAt m f o s kl] else []) :=
  activeLanes_succ kl

theorem any_activeBelow (kl b : Nat) :
    (activeBelow m f o s kl).any (fun l => l.j == b) = (decide (b < kl) && isActive o s b) := by
  rw [Bool.eq_iff_iff]
  simp only [List.any_eq_true, mem_activeBelow, beq_iff_eq, Bool.and_eq_true, decide_eq_true_eq]
  constructor
  · rintro ⟨_, ⟨j, hj, ha, rfl⟩, rfl⟩; exact ⟨hj, ha⟩
  · rintro ⟨hb, ha⟩; exact ⟨_, ⟨b, hb, ha, rfl⟩, rfl⟩

/-- After `kl` passes, each of which finds its mask bit as it was at the start, the loop has stored the
active lanes below `kl` and cleared their mask bits. -/
theorem foldl_loopBody (m : Mode) (f : Form) (o : Operands) (s : State) (kl : Nat) :
    (List.range kl).foldl
        (loopBody (elementSize f) (elementLinear m f o s) (dataElement f.dw (s.vec o.src)))
        (s.mem, s.opmask o.mask) =
      (storeLanes (elementSize f) s.mem (activeBelow m f o s kl),
        clearLanes (s.opmask o.mask) (activeBelow m f o s kl)) := by
  induction kl with
  | zero => rfl
  | succ kl ih =>
    have hbit : bitAt (clearLanes (s.opmask o.mask) (activeBelow m f o s kl)) kl = isActive o s kl := by
      rw [bitAt_clearLanes, any_activeBelow]
      simp [isActive]
    rw [List.range_succ, List.foldl_append, ih, List.foldl_cons, List.foldl_nil, loopBody, hbit,
      activeBelow_succ]
    by_cases ha : isActive o s kl = true
    · rw [if_pos ha, if_pos ha, storeLanes_append, clearLanes_append]
      simp [storeLanes_eq_foldl, clearLanes]
    · rw [if_neg ha, if_neg ha, List.append_nil]

/-- When the lanes below `kl` are cleared and the bits from `kl` on are dropped, nothing is left. -/
theorem clearLanes_activeBelow_trunc (kl : Nat) :
    ((clearLanes (s.opmask o.mask) (activeBelow m f o s kl)).setWidth kl).setWidth Config.maxKL =
      0#Config.maxKL := by
  refine BitVec.eq_of_getLsbD_eq fun b _ => ?_
  have hbit := bitAt_clearLanes (s.opmask o.mask) (activeBelow m f o s kl) b
  rw [any_activeBelow, isActive, bitAt, bitAt] at hbit
  rw [BitVec.getLsbD_setWidth, BitVec.getLsbD_setWidth, hbit, BitVec.getLsbD_zero]
  by_cases hb : b < kl <;> simp [hb]

/-- The state after the loop over all elements is that of completion. -/
theorem afterLoop_eq_complete (m : Mode) (f : Form) (o : Operands) (s : State) :
    afterLoop m f o s (elementCount f) (elementSize f) (elementLinear m f o s)
      (dataElement f.dw (s.vec o.src)) = complete m f o s (activeLanes m f o s) := by
  rw [afterLoop, sourceLoop, foldl_loopBody, clearLanes_activeBelow_trunc, activeBelow_elementCount]
  rfl

theorem elementSize_single (iw : IndexWidth) (vl : VecLen) : elementSize ⟨iw, .single, vl⟩ = 4 := by
  simp [elementSize, dataBits]

theorem elementSize_double (iw : IndexWidth) (vl : VecLen) : elementSize ⟨iw, .double, vl⟩ = 8 := by
  simp [elementSize, dataBits]

theorem exec_eq_of_eq_complete {i : Instr}
    (ht : t = complete m i.form i.operands s (activeLanes m i.form i.operands s))
    (ha : Admitted m i.form i.operands s) (hp : Permitted m i.form i.operands s) :
    exec i s = .next t := by
  rw [exec_complete ha hp, ht]

theorem afterDps_eq_complete (m : Mode) (vl : VecLen) (o : Operands) (s : State) :
    afterDps m vl (elementCount ⟨.dword, .single, vl⟩) o s =
      complete m ⟨.dword, .single, vl⟩ o s (activeLanes m ⟨.dword, .single, vl⟩ o s) := by
  rw [← afterLoop_eq_complete, afterDps, elementSize_single]
  simp only [Nat.mul_comm _ 32]
  rfl

/-- Settles O23: the loop's state is that of completion, for each vector length. -/
theorem vscatterdpsRunsItsLoop : Obligations.VscatterdpsRunsItsLoop := fun m o s =>
  ⟨exec_eq_of_eq_complete (i := .vscatterdps128 o) (afterDps_eq_complete m .v128 o s),
    exec_eq_of_eq_complete (i := .vscatterdps256 o) (afterDps_eq_complete m .v256 o s),
    exec_eq_of_eq_complete (i := .vscatterdps512 o) (afterDps_eq_complete m .v512 o s)⟩

theorem afterDpd_eq_complete (m : Mode) (vl : VecLen) (o : Operands) (s : State) :
    afterDpd m vl (elementCount ⟨.dword, .double, vl⟩) o s =
      complete m ⟨.dword, .double, vl⟩ o s (activeLanes m ⟨.dword, .double, vl⟩ o s) := by
  rw [← afterLoop_eq_complete, afterDpd, elementSize_double]
  simp only [Nat.mul_comm _ 32, Nat.mul_comm _ 64]
  rfl

/-- Settles O24: the loop's state is that of completion, for each vector length. -/
theorem vscatterdpdRunsItsLoop : Obligations.VscatterdpdRunsItsLoop := fun m o s =>
  ⟨exec_eq_of_eq_complete (i := .vscatterdpd128 o) (afterDpd_eq_complete m .v128 o s),
    exec_eq_of_eq_complete (i := .vscatterdpd256 o) (afterDpd_eq_complete m .v256 o s),
    exec_eq_of_eq_complete (i := .vscatterdpd512 o) (afterDpd_eq_complete m .v512 o s)⟩

theorem afterQps_eq_complete (m : Mode) (vl : VecLen) (o : Operands) (s : State) :
    afterQps m vl (elementCount ⟨.qword, .single, vl⟩) o s =
      complete m ⟨.qword, .single, vl⟩ o s (activeLanes m ⟨.qword, .single, vl⟩ o s) := by
  rw [← afterLoop_eq_complete, afterQps, elementSize_single]
  simp only [Nat.mul_comm _ 32, Nat.mul_comm _ 64]
  rfl

/-- Settles O25: the loop's state is that of completion, for each vector length. -/
theorem vscatterqpsRunsItsLoop : Obligations.VscatterqpsRunsItsLoop := fun m o s =>
  ⟨exec_eq_of_eq_complete (i := .vscatterqps128 o) (afterQps_eq_complete m .v128 o s),
    exec_eq_of_eq_complete (i := .vscatterqps256 o) (afterQps_eq_complete m .v256 o s),
    exec_eq_of_eq_complete (i := .vscatterqps512 o) (afterQps_eq_complete m .v512 o s)⟩

theorem afterQpd_eq_complete (m : Mode) (vl : VecLen) (o : Operands) (s : State) :
    afterQpd m vl (elementCount ⟨.qword, .double, vl⟩) o s =
      complete m ⟨.qword, .double, vl⟩ o s (activeLanes m ⟨.qword, .double, vl⟩ o s) := by
  rw [← afterLoop_eq_complete, afterQpd, elementSize_double]
  simp only [Nat.mul_comm _ 64]
  rfl

/-- Settles O26: the loop's state is that of completion, for each vector length. -/
theorem vscatterqpdRunsItsLoop : Obligations.VscatterqpdRunsItsLoop := fun m o s =>
  ⟨exec_eq_of_eq_complete (i := .vscatterqpd128 o) (afterQpd_eq_complete m .v128 o s),
    exec_eq_of_eq_complete (i := .vscatterqpd256 o) (afterQpd_eq_complete m .v256 o s),
    exec_eq_of_eq_complete (i := .vscatterqpd512 o) (afterQpd_eq_complete m .v512 o s)⟩

/-! Completion (40_scatter.md R100, R105, R106, R108). -/

@[simp] theorem storeLanes_nil (n : Nat) (mem : Memory) : storeLanes n mem [] = mem := rfl

@[simp] theorem raisedEvents_nil (s : State) (n : Nat) : raisedEvents s n [] = [] := rfl

theorem complete_nil :
    complete m f o s [] = (s.setOpmask o.mask 0#Config.maxKL).setPc (nextPc m o s) := by
  rw [complete, storeLanes_nil, raisedEvents_nil, List.append_nil]
  rfl

/-- Settles O27: the list of active lanes is empty, so every element is permitted and none stored. -/
theorem emptyMaskStoresNothing : Obligations.EmptyMaskStoresNothing := by
  intro i m s ha hempty
  have inactive (j : Nat) (hj : j < elementCount i.form) : ¬ isActive i.operands s j = true :=
    Bool.eq_false_iff.1 (hempty j hj)
  have hnil : activeLanes m i.form i.operands s = [] :=
    List.eq_nil_iff_forall_not_mem.2 fun l hl => by
      obtain ⟨j, hj, hact, -⟩ := mem_activeLanes.1 hl
      exact inactive j hj hact
  rw [exec_complete ha fun j hj hact => absurd hact (inactive j hj), hnil, complete_nil]

/-- Settles O28: completion writes 0 to the writemask and to no other opmask register. -/
theorem completionClearsTheMask : Obligations.CompletionClearsTheMask := by
  intro i s t h
  obtain ⟨m, -, -, rfl⟩ := exec_next h
  refine ⟨?_, fun r hr => ?_⟩
  · rw [opmask_complete, State.opmask_setOpmask_self]
  · rw [opmask_complete, State.opmask_setOpmask, if_neg hr]

theorem permitted_iff :
    Permitted m f o s ↔
      laneRefusal m f o s (activeLanes m f o s) = none ∧ firstFault (activeLanes m f o s) = none := by
  rw [laneRefusal_eq_none_iff, firstFault_eq_none_iff]
  constructor
  · refine fun h => ⟨fun j hj ha _ => (h j hj ha).2, fun l hl => ?_⟩
    obtain ⟨j, hj, ha, rfl⟩ := mem_activeLanes.1 hl
    exact (h j hj ha).1
  · rintro ⟨hscope, hchk⟩ j hj ha
    have hnone := hchk _ (mem_activeLanes.2 ⟨j, hj, ha, rfl⟩)
    exact ⟨hnone, hscope j hj ha hnone⟩

/-- Whether an instruction completes depends on its active lanes and on what refuses them. -/
theorem exec_complete_of_activeLanes_eq {i : Instr} {s' : State}
    (ha : Admitted m i.form i.operands s') (hp : Permitted m i.form i.operands s)
    (hl : activeLanes m i.form i.operands s' = activeLanes m i.form i.operands s)
    (hr : ∀ ls, laneRefusal m i.form i.operands s' ls = laneRefusal m i.form i.operands s ls) :
    exec i s' = .next (complete m i.form i.operands s' (activeLanes m i.form i.operands s)) := by
  have hp' : Permitted m i.form i.operands s' := by
    rw [permitted_iff, hl, hr]
    exact permitted_iff.1 hp
  rw [exec_complete ha hp', hl]

theorem activeLanes_congr {s' : State}
    (hact : ∀ j < elementCount f, isActive o s' j = isActive o s j)
    (hlane : ∀ j < elementCount f, laneAt m f o s' j = laneAt m f o s j) :
    activeLanes m f o s' = activeLanes m f o s := by
  unfold activeLanes
  rw [List.filter_congr fun j hj => hact j (List.mem_range.1 hj)]
  exact List.map_congr_left fun j hj =>
    hlane j (List.mem_range.1 (List.mem_filter.1 hj).1)

/-- The checks before the elements do not depend on the vector and opmask registers. -/
theorem Admitted.with_vector_opmask (h : Admitted m f o s) (v : Vector Zmm 32)
    (k : Vector (BitVec Config.maxKL) 8) : Admitted m f o { s with v := v, k := k } :=
  ⟨h.mode, h.mask, h.size, h.features, h.enabled, h.registers, h.room, h.notSwitched⟩

theorem setOpmask_setOpmask (s : State) (r : BitVec 3) (w w' : BitVec Config.maxKL) :
    (s.setOpmask r w).setOpmask r w' = s.setOpmask r w' := by
  simp [State.setOpmask]

theorem complete_setOpmask (w : BitVec Config.maxKL) (ls : List Lane) :
    complete m f o (s.setOpmask o.mask w) ls = complete m f o s ls :=
  congrArg (fun t : State => (t.setPc (nextPc m o s)).setPending _)
    (setOpmask_setOpmask (s.setMem (storeLanes (elementSize f) s.mem ls)) o.mask w 0#Config.maxKL)

/-- Settles O33: of the writemask the lanes see the bits below KL alone, and completion overwrites it. -/
theorem upperMaskBitsSelectNothing : Obligations.UpperMaskBitsSelectNothing := by
  intro i s t w h hw
  obtain ⟨m, ha, hp, rfl⟩ := exec_next h
  have hl : activeLanes m i.form i.operands (s.setOpmask i.operands.mask w) =
      activeLanes m i.form i.operands s :=
    activeLanes_congr (fun j hj => by simp [isActive, hw j hj]) fun _ _ => rfl
  have hexec := exec_complete_of_activeLanes_eq (s' := s.setOpmask i.operands.mask w)
    (ha.with_vector_opmask _ _) hp hl fun _ => rfl
  rw [hexec, complete_setOpmask]

theorem extractLsb'_congr {n k j : Nat} {w w' : Zmm} (hj : j < n)
    (h : ∀ b < n * k, bitAt w' b = bitAt w b) :
    w'.extractLsb' (k * j) k = w.extractLsb' (k * j) k := by
  refine BitVec.eq_of_getLsbD_eq fun b hb => ?_
  have hlt : k * j + b < n * k := by
    calc k * j + b < k * j + k := by omega
      _ = (j + 1) * k := by ring
      _ ≤ n * k := Nat.mul_le_mul_right k hj
  rw [BitVec.getLsbD_extractLsb', BitVec.getLsbD_extractLsb']
  exact congrArg _ (h _ hlt)

/-- An index element is read from its own bits alone. -/
theorem indexElement_congr {iw : IndexWidth} {n j : Nat} {w w' : Zmm} (hj : j < n)
    (h : ∀ b < n * indexBits iw, bitAt w' b = bitAt w b) :
    indexElement iw w' j = indexElement iw w j := by
  cases iw with
  | dword => exact congrArg (BitVec.signExtend 64) (extractLsb'_congr hj h)
  | qword => exact extractLsb'_congr hj h

/-- A data element is read from its own bits alone. -/
theorem dataElement_congr {dw : DataWidth} {n j : Nat} {w w' : Zmm} (hj : j < n)
    (h : ∀ b < n * dataBits dw, bitAt w' b = bitAt w b) :
    dataElement dw w' j = dataElement dw w j := by
  cases dw with
  | single => exact congrArg (BitVec.setWidth 64) (extractLsb'_congr hj h)
  | double => exact extractLsb'_congr hj h

/-- Of the vector registers a lane sees its index element and its data element. -/
theorem laneAt_congr_v {w : Vector Zmm 32} {j : Nat}
    (hidx : indexElement f.iw (State.vec { s with v := w } o.idx) j = indexElement f.iw (s.vec o.idx) j)
    (hsrc : dataElement f.dw (State.vec { s with v := w } o.src) j = dataElement f.dw (s.vec o.src) j) :
    laneAt m f o { s with v := w } j = laneAt m f o s j := by
  have hea : elementAddress m f o { s with v := w } j = elementAddress m f o s j := by
    rw [elementAddress, hidx]; rfl
  rw [laneAt, hea, hsrc]
  rfl

/-- Settles O32: no lane changes, and nothing but the lanes depends on the vector registers. -/
theorem unreadVectorBitsDoNotMatter : Obligations.UnreadVectorBitsDoNotMatter := by
  intro i s t w h hidx hsrc
  obtain ⟨m, ha, hp, rfl⟩ := exec_next h
  have hl : activeLanes m i.form i.operands { s with v := w } = activeLanes m i.form i.operands s :=
    activeLanes_congr (fun _ _ => rfl) fun j hj =>
      laneAt_congr_v (indexElement_congr hj hidx) (dataElement_congr hj hsrc)
  exact exec_complete_of_activeLanes_eq (ha.with_vector_opmask w _) hp hl fun _ => rfl

/-! What a suspension leaves behind (40_scatter.md R107). -/

/-- The lanes that are complete at a fault, in ascending order. -/
theorem doneLanes_eq_map (m : Mode) (f : Form) (o : Operands) (s : State) (j : Nat) :
    doneLanes s j (activeLanes m f o s) = (doneElements m f o s j).map (laneAt m f o s) := by
  rw [doneLanes, activeLanes, List.filter_map, List.filter_filter, doneElements]
  congr 1
  refine List.filter_congr fun n hn => ?_
  simp only [isDone, List.mem_range.1 hn, decide_true, Bool.true_and]
  exact Bool.and_comm _ _

/-- An admitted instruction whose complete elements raised no event delivers its element's fault. -/
theorem Admitted.exec_eq_raise {i : Instr} {j : Nat} {e : Exc} (ha : Admitted m i.form i.operands s)
    (hf : FaultsAt m i.form i.operands s j e)
    (hev : raisedEvents s (elementSize i.form)
      (doneLanes s j (activeLanes m i.form i.operands s)) = []) :
    exec i s = raise e
      (partly i.form i.operands s (doneLanes s j (activeLanes m i.form i.operands s))) := by
  rw [exec_eq_scatter, ha.scatter_eq, hf.runScatter_eq, suspend, hev]

/-- Settles O42: the state is `partly` of the complete elements. -/
theorem faultSuspendsTheInstruction : Obligations.FaultSuspendsTheInstruction := by
  intro i m s j e f o ha hf hev
  refine ⟨clearLanes (s.opmask o.mask) (doneLanes s j (activeLanes m f o s)),
    bitAt_clearLanes_doneLanes m f o s j, ?_⟩
  rw [ha.exec_eq_raise hf hev, raise, partly, storeLanes_eq_foldl, doneLanes_eq_map, List.foldl_map]
  rfl

theorem partly_nil : partly f o s [] = s := State.setOpmask_same s o.mask

/-- Settles O43: with no lane complete, `partly` is the state itself. -/
theorem faultWithNothingDoneChangesNothing : Obligations.FaultWithNothingDoneChangesNothing := by
  intro i m s j e ha hf hnone
  have hnil : doneLanes s j (activeLanes m i.form i.operands s) = [] := by
    rw [doneLanes_eq_map, doneElements, List.filter_eq_nil_iff.2 (by simp [hnone]), List.map_nil]
  rw [ha.exec_eq_raise hf (by rw [hnil, raisedEvents_nil]), hnil, partly_nil, raise]

end Sys2Proof
end

section
/-! PROOFS. The family of 41_intrinsics.md: the memory effect of a call and that of its form. -/

namespace Sys2Proof

open Sys2Proof.Machine

variable {m : Mode} {f : Form} {o : Operands} {s : State}

/-- The context in which a form executes: where its call is executed (log 37). -/
def formContext (m : Mode) (o : Operands) (s : State) : CallContext :=
  ⟨m, addressSize m s.csD o, segBase m s (segmentOf m o)⟩

/-- A displacement may as well be part of the base (41_intrinsics.md R142). -/
theorem effectiveAddress_add_disp (sz : AddrSize) (base index scale disp : Word) :
    effectiveAddress sz (base + disp) index scale 0#64 = effectiveAddress sz base index scale disp := by
  rw [effectiveAddress, effectiveAddress, BitVec.add_zero, add_right_comm]

/-- An element of a call has the linear address of the same element of its form. -/
theorem formContext_address (m : Mode) (f : Form) (o : Operands) (s : State) (j : Nat) :
    (formContext m o s).address (baseValue o s + dispValue f o.disp)
      (indexElement f.iw (s.vec o.idx) j) o.scale = elementLinear m f o s j := by
  rw [CallContext.address, effectiveAddress_add_disp]
  rfl

/-- The stores of the active lanes are one pass over all elements that skips the inactive ones. -/
theorem storeLanes_activeLanes_eq_foldl (m : Mode) (f : Form) (o : Operands) (s : State) (mem : Memory) :
    storeLanes (elementSize f) mem (activeLanes m f o s) =
      (List.range (elementCount f)).foldl
        (fun mem j =>
          if isActive o s j = true then
            mem.store (elementLinear m f o s j) (elementSize f) (dataElement f.dw (s.vec o.src) j)
          else mem)
        mem := by
  rw [storeLanes_eq_foldl, activeLanes, List.foldl_map, List.foldl_filter]
  rfl

/-- A call whose mask argument selects the form's active elements stores the form's active lanes
(41_intrinsics.md R143, R144). -/
theorem Intrinsic.effect_eq_storeLanes {c : Intrinsic} {k : BitVec 16}
    (hk : ∀ j < elementCount c.form, isActive o s j = c.stores k j) :
    c.effect (formContext m o s) (baseValue o s + dispValue c.form o.disp) k (s.vec o.idx) (s.vec o.src)
        o.scale s.mem =
      storeLanes (elementSize c.form) s.mem (activeLanes m c.form o s) := by
  rw [storeLanes_activeLanes_eq_foldl, Intrinsic.effect]
  refine List.foldl_ext _ _ _ fun mem j hj => ?_
  rw [hk j (List.mem_range.1 hj), formContext_address]

/-- Settles O52: the form completes, and what it stores are its active lanes. -/
theorem intrinsicIsItsForm : Obligations.IntrinsicIsItsForm := by
  intro c m o s k ha hp hk
  have hexec := exec_complete (i := c.form.instr o) (by simpa using ha) (by simpa using hp)
  rw [Form.form_instr, Form.operands_instr] at hexec
  exact ⟨_, hexec, (Intrinsic.effect_eq_storeLanes hk).symm⟩

end Sys2Proof
end

section
/-! PROOFS. The family of 60_exceptions.md: what comes before any element, the faults of elements, the state
at delivery, and restart. -/

namespace Sys2Proof

open Sys2Proof.Machine

variable {m : Mode} {f : Form} {o : Operands} {s t : State} {i : Instr} {j : Nat} {e : Exc}

/-! Before any element (60_exceptions.md R152, R154, R160, R161, R164). -/

/-- Settles O13: the mode is tested first, then the pending traps. -/
theorem stepBeforeAnyInstruction : Obligations.StepBeforeAnyInstruction := by
  refine fun s => ⟨fun hm => ?_, fun m hm hp => ?_⟩
  · rw [step, hm]
  · rw [step, hm]
    exact if_pos hp

/-- The two modes outside the spec (60_exceptions.md R152(f); log 22). -/
theorem mode_eq_none (h : bitAt s.cr0 0 = false ∨ (bitAt s.efer 10 = false ∧ bitAt s.eflags 17 = true)) :
    s.mode = none := by
  rcases h with hpe | ⟨hlma, hvm⟩
  · simp [State.mode, hpe]
  · simp [State.mode, virtual8086Flag, hlma, hvm]

/-- Settles O17: outside the spec's modes `exec` raises `#UD` before any other check. -/
theorem realAndVirtualModesAreUndefined : Obligations.RealAndVirtualModesAreUndefined := by
  intro i s h
  refine exec_eq_ud fun m hm => ?_
  rw [mode_eq_none h] at hm
  cases hm

/-- CR0.TS is no part of the mode. -/
theorem mode_clear_taskSwitched (s : State) :
    State.mode { s with cr0 := s.cr0 &&& ~~~8#64 } = s.mode := by
  simp [State.mode, bitAt]

/-- Settles O18: CR0.TS matters to the last check before the elements alone. -/
theorem taskSwitchedIsDeviceNotAvailable : Obligations.TaskSwitchedIsDeviceNotAvailable := by
  intro i m s ha hts
  have hmode : s.mode = some m := (mode_clear_taskSwitched s).symm.trans ha.mode
  have hud : ¬ undefinedOpcode m i.form i.operands s = true := by
    simpa [undefinedOpcode_iff, ha.mask] using ⟨ha.size, ha.features, ha.enabled⟩
  have hext : ¬ (m = .m32 ∧ ¬ extensionBitsStoredOne i.operands = true) :=
    fun h => h.2 (ha.registers h.1)
  have hroom : (s.ip m).toNat + ilen i.operands < addressSpace m := ha.room
  have htop : ¬ instructionReachesTop m i.operands s = true := by
    simpa [instructionReachesTop] using hroom
  rw [exec_eq_scatter, scatter, hmode]
  simp only [if_neg hud, if_neg hext, if_neg htop]
  exact if_pos hts

/-! The access check in M32 (60_exceptions.md R155, R156). -/

theorem elementCheck_of_segmentCheck
    (h : segmentCheck m s (segmentOf m o) (elementAddress m f o s j)
      (linearAddress m s (segmentOf m o) (elementAddress m f o s j)) (elementSize f) = some e) :
    elementCheck m f o s j = some e := by
  rw [elementCheck, storeCheck, h, Option.some_or]

theorem outsideLimit_of_byte {r : SegReg} {ea : Word} {n b : Nat} (hb : b < n)
    (h : r.limit.toNat < (low32 (ea + BitVec.ofNat 64 b)).toNat) : outsideLimit r ea n = true :=
  List.any_eq_true.2 ⟨b, List.mem_range.2 hb, decide_eq_true h⟩

/-- A byte above the limit faults in every segment; a null or read-only one answers `#GP(0)` before. -/
theorem segmentCheck_m32_of_outsideLimit {seg : Segment} {ea : Word} {n : Nat} (la : Word)
    (h : outsideLimit (s.segReg seg) ea n = true) :
    segmentCheck .m32 s seg ea la n = some (segmentFault seg) := by
  by_cases haccess : seg ≠ .ss ∧ ((s.segReg seg).null = true ∨ ¬ (s.segReg seg).writable = true)
  · rw [segmentFault_eq, if_neg haccess.1]
    exact if_pos haccess
  · exact (if_neg haccess).trans (if_pos h)

theorem segmentCheck_m32_of_noWrite {seg : Segment} (ea la : Word) (n : Nat) (hss : seg ≠ .ss)
    (h : (s.segReg seg).null = true ∨ (s.segReg seg).writable = false) :
    segmentCheck .m32 s seg ea la n = some .gp :=
  if_pos ⟨hss, h.imp_right fun hw => by simp [hw]⟩

/-- Settles O40: either cause makes `segmentCheck` answer, which comes before the page rules. -/
theorem segmentLimitFaults : Obligations.SegmentLimitFaults := by
  intro f o s j b hb seg r
  refine ⟨fun hlimit => ?_, fun hss haccess => ?_⟩ <;> refine elementCheck_of_segmentCheck ?_
  · rw [← segmentFault_eq]
    exact segmentCheck_m32_of_outsideLimit _ (outsideLimit_of_byte hb hlimit)
  · exact segmentCheck_m32_of_noWrite _ _ _ hss haccess

/-! The outcomes, and what is recorded (60_exceptions.md R150, R157, R162, R163). -/

/-- Settles O21: the checks before the elements, the refused elements, completion and suspension are all
that there is. -/
theorem outcomesOfAnInstruction : Obligations.OutcomesOfAnInstruction := by
  intro i s
  have raised {e : Exc} {t : State} (h : exec i s = .fault (.raised e t)) :=
    And.intro h (exec_raised_exc h)
  rcases scatter_cases i.form i.operands s with h | h | h | h | ⟨m, -, h⟩ <;>
    rw [← exec_eq_scatter] at h
  · exact .inr (.inl ⟨_, _, raised h⟩)
  · exact .inr (.inl ⟨_, _, raised h⟩)
  · exact .inr (.inr (.inr (.inl h)))
  · exact .inr (.inr (.inr (.inr (.inl h))))
  rcases runScatter_cases m i.form i.operands s with h' | h' | ⟨-, h'⟩ | ⟨j, e, -, h'⟩
  · exact .inr (.inr (.inr (.inr (.inr (.inl (h.trans h'))))))
  · exact .inr (.inr (.inr (.inr (.inr (.inr (h.trans h'))))))
  · exact .inl ⟨_, h.trans h'⟩
  rcases suspend_cases i.form i.operands s (doneLanes s j (activeLanes m i.form i.operands s)) e with
    ⟨-, h''⟩ | ⟨-, h''⟩
  · exact .inr (.inl ⟨_, _, raised (h.trans (h'.trans h''))⟩)
  · exact .inr (.inr (.inl ⟨_, _, _, h.trans (h'.trans h'')⟩))

/-- An element's page fault is that of its lowest byte that a rule covers (60_exceptions.md R163). -/
theorem elementCheck_pf {code : BitVec 32} {la : Word} (h : elementCheck m f o s j = some (.pf code la)) :
    pageCheck m s (linearAddress m s (segmentOf m o) (elementAddress m f o s j)) (elementSize f) =
      some (.pf code la) := by
  refine (elementCheck_cases h).resolve_left fun hseg => ?_
  split at hseg <;> cases hseg

/-- Settles O41: the page fault is the element's, whose page check names byte and rule. -/
theorem pageFaultRecordsTheAddress : Obligations.PageFaultRecordsTheAddress := by
  intro i s t code la h
  rcases exec_raised h with ⟨he, -⟩ | ⟨he, -⟩ | ⟨m, j, ha, hf, -, rfl⟩
  · cases he
  · cases he
  obtain ⟨b, hb, r, hr, he, hcover, hlowest⟩ := pageCheck_some (elementCheck_pf hf.fault)
  obtain ⟨hcode, hla⟩ := Exc.pf.inj he
  obtain ⟨hpresent, hwrite, huser, hrsvd, hfetch, hkey⟩ := hcode ▸ pageFaultCode_bits r
  exact ⟨rfl, hwrite, hfetch, m, j, b, r, ha.mode, hf, hb, hr, hcover, hla, hpresent, huser, hrsvd,
    hkey, hlowest⟩

/-! The state at delivery (60_exceptions.md R162, R165, R167). -/

theorem bitAt_opmask_partly (m : Mode) (f : Form) (o : Operands) (s : State) (j b : Nat) :
    bitAt ((partly f o s (doneLanes s j (activeLanes m f o s))).opmask o.mask) b =
      (bitAt (s.opmask o.mask) b && !isDone m f o s j b) := by
  rw [opmask_partly, State.opmask_setOpmask_self, bitAt_clearLanes_doneLanes]

theorem isDone_self (m : Mode) (f : Form) (o : Operands) (s : State) (j : Nat) :
    isDone m f o s j j = false := by
  simp [isDone]

/-- Below the faulting element every active element is complete (40_scatter.md R107). -/
theorem isDone_of_lt {n : Nat} (hlt : n < j) (hj : j < elementCount f) :
    isDone m f o s j n = isActive o s n := by
  simp [isDone, hlt, hlt.trans hj]

/-- Settles O44: of the mask's bits up to `j` that of `j` alone is left. -/
theorem faultsAreDeliveredRightToLeft : Obligations.FaultsAreDeliveredRightToLeft := by
  intro i s t e h
  rcases exec_raised h with ⟨rfl, -⟩ | ⟨rfl, -⟩ | ⟨m, j, ha, hf, -, rfl⟩
  · exact .inl rfl
  · exact .inr (.inl rfl)
  refine .inr (.inr ⟨m, j, ha.mode, hf, ?_, fun n hn => ?_⟩) <;>
    rw [opmask_atDelivery, bitAt_opmask_partly]
  · rw [isDone_self, Bool.not_false, Bool.and_true]
    exact hf.active
  · rw [isDone_of_lt hn hf.inForm]
    exact Bool.and_not_self _

theorem bitAt_withResumeFlag (flags : BitVec 32) (b : Nat) :
    bitAt (withResumeFlag flags) b = (bitAt flags b || decide (b = 16)) := by
  have hRF : (0x10000#32).getLsbD b = decide (b = 16) := by
    rw [show 0x10000#32 = BitVec.twoPow 32 16 from rfl, BitVec.getLsbD_twoPow]
    simp [eq_comm]
  rw [withResumeFlag, bitAt, BitVec.getLsbD_or, hRF, bitAt]

/-- The state in which a suspended instruction delivers, memory and mask written out. -/
theorem partly_doneLanes_eq (m : Mode) (f : Form) (o : Operands) (s : State) (j : Nat) :
    partly f o s (doneLanes s j (activeLanes m f o s)) =
      (s.setMem ((doneElements m f o s j).foldl
        (fun mem n => mem.store (elementLinear m f o s n) (elementSize f)
          (dataElement f.dw (s.vec o.src) n)) s.mem)).setOpmask o.mask
        (clearLanes (s.opmask o.mask) (doneLanes s j (activeLanes m f o s))) := by
  rw [partly, storeLanes_eq_foldl, doneLanes_eq_map, List.foldl_map]
  rfl

/-- An admitted instruction is suspended at its lowest faulting element. -/
theorem Admitted.exec_eq_suspend (ha : Admitted m i.form i.operands s)
    (hf : FaultsAt m i.form i.operands s j e) :
    exec i s = suspend i.form i.operands s (doneLanes s j (activeLanes m i.form i.operands s)) e := by
  rw [exec_eq_scatter, ha.scatter_eq, hf.runScatter_eq]

/-- Settles O45: the events are those of the complete elements' stores, and the state is `partly`. -/
theorem pendingEventsAreDeliveredInLieu : Obligations.PendingEventsAreDeliveredInLieu := by
  intro i m s j e f o raised ha hf hev
  refine ⟨clearLanes (s.opmask o.mask) (doneLanes s j (activeLanes m f o s)), withResumeFlag s.eflags,
    bitAt_clearLanes_doneLanes m f o s j, bitAt_withResumeFlag s.eflags, ?_⟩
  obtain ⟨hnil, -⟩ | ⟨-, hlieu⟩ := suspend_cases f o s (doneLanes s j (activeLanes m f o s)) e
  · exact absurd hnil hev
  · rw [ha.exec_eq_suspend hf, hlieu, partly_doneLanes_eq]
    rfl

/-- Delivery writes CR2: its own value, or the address of a page fault (60_exceptions.md R157). -/
theorem atDelivery_eq_setCr2 (e : Exc) (s : State) :
    atDelivery e s = s.setCr2 s.cr2 ∨ ∃ code la, e = .pf code la ∧ atDelivery e s = s.setCr2 la := by
  cases e with
  | pf code la => exact .inr ⟨code, la, rfl, rfl⟩
  | _ => exact .inl rfl

/-- Every state that an instruction leaves at a fault or a delivery: some lanes are stored and their mask
bits cleared, and CR2 is written if a page fault is raised (60_exceptions.md R165, R167). -/
theorem exec_stop_state
    (h : (∃ e, exec i s = .fault (.raised e t)) ∨
      ∃ events flags, exec i s = .fault (.delivered events flags t)) :
    ∃ done cr2, t = (partly i.form i.operands s done).setCr2 cr2 ∧
      (cr2 = s.cr2 ∨ ∃ code la, exec i s = .fault (.raised (.pf code la) t)) := by
  have unchanged : s = (partly i.form i.operands s []).setCr2 s.cr2 := by rw [partly_nil]; rfl
  rcases h with ⟨e, h⟩ | ⟨events, flags, h⟩
  · rcases exec_raised h with ⟨-, rfl⟩ | ⟨-, rfl⟩ | ⟨m, j, -, -, -, ht⟩
    · exact ⟨[], _, unchanged, .inl rfl⟩
    · exact ⟨[], _, unchanged, .inl rfl⟩
    · rcases atDelivery_eq_setCr2 e (partly i.form i.operands s
        (doneLanes s j (activeLanes m i.form i.operands s))) with h' | ⟨code, la, rfl, h'⟩
      · exact ⟨_, _, ht.trans h', .inl rfl⟩
      · exact ⟨_, la, ht.trans h', .inr ⟨code, la, h⟩⟩
  · obtain ⟨m, j, e, -, -, -, -, -, rfl⟩ := exec_delivered h
    exact ⟨_, s.cr2, rfl, .inl rfl⟩

/-- Settles O48: the state is `s` with memory, the writemask and CR2 written. -/
theorem faultLeavesThePc : Obligations.FaultLeavesThePc := by
  intro i s t h
  obtain ⟨done, cr2, rfl, hcr2⟩ := exec_stop_state h
  refine ⟨rfl, rfl, rfl, rfl, rfl, rfl, rfl, rfl, rfl, rfl, rfl, rfl, rfl, rfl, rfl, rfl, rfl,
    fun r hr => ?_, hcr2⟩
  calc (partly i.form i.operands s done).opmask r
      = (s.setOpmask i.operands.mask _).opmask r := opmask_partly done r
    _ = s.opmask r := by rw [State.opmask_setOpmask, if_neg hr]

/-! Restart (60_exceptions.md R168). -/

/-- Stores of some lanes first and of the others afterwards leave what the ascending order leaves, if no lane
stored first overlaps a lower one stored afterwards (20_memory.md R41, 90_conflicts.md C12). -/
theorem read_storeLanes_filter {n : Nat} {mem : Memory} {ls : List Lane}
    (hp : ls.Pairwise fun l l' => l.j < l'.j) {p : Lane → Bool}
    (h : ∀ l ∈ ls, ∀ l' ∈ ls, p l = true → p l' = false → l'.j < l.j → ¬ overlaps n l l') (a : Nat) :
    (storeLanes n (storeLanes n mem (ls.filter p)) (ls.filter fun l => !p l)).read a =
      (storeLanes n mem ls).read a := by
  rcases last_cover n ls a with hn | ⟨l, hl, hc, hlast⟩
  · have hnone (q : Lane → Bool) : ∀ l ∈ ls.filter q, ¬ Covers n l a :=
      fun l hl => hn l (List.mem_of_mem_filter hl)
    rw [read_storeLanes_none (hnone _), read_storeLanes_none (hnone _), read_storeLanes_none hn]
  · have hlast' (q : Lane → Bool) : ∀ l' ∈ ls.filter q, l.j < l'.j → ¬ Covers n l' a :=
      fun l' hl' => hlast l' (List.mem_of_mem_filter hl')
    rw [read_storeLanes_last hp hl hc hlast]
    cases hpl : p l with
    | false =>
      exact read_storeLanes_last (hp.filter _) (List.mem_filter.2 ⟨hl, by simp [hpl]⟩) hc (hlast' _)
    | true =>
      have later : ∀ l' ∈ ls.filter (fun l => !p l), ¬ Covers n l' a := fun l' hl' hc' => by
        obtain ⟨hmem, hpl'⟩ := List.mem_filter.1 hl'
        have hpl' : p l' = false := by simpa using hpl'
        rcases lt_trichotomy l.j l'.j with hlt | heq | hgt
        · exact hlast l' hmem hlt hc'
        · rw [lane_eq_of_j_eq hp hl hmem heq, hpl'] at hpl
          cases hpl
        · exact h l hl l' hmem hpl hpl' hgt (overlaps_of_covers hc hc')
      rw [read_storeLanes_none later]
      exact read_storeLanes_last (hp.filter _) (List.mem_filter.2 ⟨hl, hpl⟩) hc (hlast' _)

/-- The state in which an instruction is executed again (60_exceptions.md R168): as the fault of element `j` has
left it, but for the page rules. -/
def restartState (m : Mode) (f : Form) (o : Operands) (s : State) (j : Nat) (cr2 : Word)
    (rules : List PageRule) : State :=
  { (partly f o s (doneLanes s j (activeLanes m f o s))).setCr2 cr2 with pageRules := rules }

variable {cr2 : Word} {rules : List PageRule}

/-- The checks before the elements do not depend on what a fault changes. -/
theorem Admitted.restartState (h : Admitted m f o s) :
    Admitted m f o (restartState m f o s j cr2 rules) :=
  ⟨h.mode, h.mask, h.size, h.features, h.enabled, h.registers, h.room, h.notSwitched⟩

/-- The elements that take part in the restart are those that are still incomplete. -/
theorem isActive_restartState (m : Mode) (f : Form) (o : Operands) (s : State) (j b : Nat) :
    isActive o (restartState m f o s j cr2 rules) b =
      (isActive o s b && !isDone m f o s j b) :=
  bitAt_opmask_partly m f o s j b

/-- Addresses and data of the elements do not depend on what a fault changes: the restart stores the lanes
that are still incomplete. -/
theorem storeLanes_restartState (m : Mode) (f : Form) (o : Operands) (s : State) (j : Nat) (mem : Memory) :
    storeLanes (elementSize f) mem (activeLanes m f o (restartState m f o s j cr2 rules)) =
      storeLanes (elementSize f) mem
        ((activeLanes m f o s).filter fun l => !isDone m f o s j l.j) := by
  have hactive : (List.range (elementCount f)).filter
      (isActive o (restartState m f o s j cr2 rules)) =
      ((List.range (elementCount f)).filter (isActive o s)).filter fun b => !isDone m f o s j b := by
    rw [List.filter_filter]
    refine List.filter_congr fun b _ => ?_
    rw [isActive_restartState, Bool.and_comm]
  rw [storeLanes_eq_foldl, storeLanes_eq_foldl, activeLanes, hactive, activeLanes, List.filter_map,
    List.foldl_map, List.foldl_map]
  rfl

theorem doneLanes_eq_filter (m : Mode) (f : Form) (o : Operands) (s : State) (j : Nat) :
    doneLanes s j (activeLanes m f o s) =
      (activeLanes m f o s).filter fun l => isDone m f o s j l.j := by
  refine List.filter_congr fun l hl => ?_
  obtain ⟨n, hn, ha, rfl⟩ := mem_activeLanes.1 hl
  simp [isDone, hn, ha]

/-- The state at a fault, with other page rules. -/
theorem exists_restartState_eq (ha : Admitted m i.form i.operands s)
    (hf : FaultsAt m i.form i.operands s j e) (h : exec i s = .fault (.raised e t))
    (rules : List PageRule) :
    ∃ cr2, { t with pageRules := rules } = restartState m i.form i.operands s j cr2 rules := by
  rw [ha.exec_eq_suspend hf] at h
  obtain ⟨-, h'⟩ | ⟨-, h'⟩ := suspend_cases i.form i.operands s
    (doneLanes s j (activeLanes m i.form i.operands s)) e <;> rw [h'] at h <;> cases h
  obtain h' | ⟨-, la, -, h'⟩ := atDelivery_eq_setCr2 e (partly i.form i.operands s
    (doneLanes s j (activeLanes m i.form i.operands s))) <;> rw [h'] <;> exact ⟨_, rfl⟩

/-- Settles O46: the complete elements' stores first and those of the restart afterwards leave what the
ascending order leaves. -/
theorem restartCompletesTheScatter : Obligations.RestartCompletesTheScatter := by
  intro i m s j e t rules f o ha hf h hp hoverlap
  obtain ⟨cr2, ht⟩ := exists_restartState_eq ha hf h rules
  rw [ht] at hp ⊢
  refine ⟨_, exec_complete ha.restartState hp, ?_, rfl, fun a => ?_⟩
  · rw [opmask_complete, State.opmask_setOpmask_self]
  have disjoint : ∀ l ∈ activeLanes m f o s, ∀ l' ∈ activeLanes m f o s, isDone m f o s j l.j = true →
      isDone m f o s j l'.j = false → l'.j < l.j → ¬ overlaps (elementSize f) l l' := by
    intro l hl l' hl' hd hd' hlt hover
    obtain ⟨n, -, -, rfl⟩ := mem_activeLanes.1 hl
    obtain ⟨n', hn', ha', rfl⟩ := mem_activeLanes.1 hl'
    obtain ⟨h1, h2⟩ := hover
    have := hoverlap n n' hd hd' ha' hn' hlt
    simp only [laneAt_la] at h1 h2
    omega
  calc (storeLanes (elementSize f) (storeLanes (elementSize f) s.mem
          (doneLanes s j (activeLanes m f o s)))
          (activeLanes m f o (restartState m f o s j cr2 rules))).read a
      = (storeLanes (elementSize f) (storeLanes (elementSize f) s.mem
          ((activeLanes m f o s).filter fun l => isDone m f o s j l.j))
          ((activeLanes m f o s).filter fun l => !isDone m f o s j l.j)).read a := by
        rw [storeLanes_restartState, doneLanes_eq_filter]
    _ = (storeLanes (elementSize f) s.mem (activeLanes m f o s)).read a :=
        read_storeLanes_filter (activeLanes_pairwise m f o s) disjoint a

end Sys2Proof
end

section
/-! PROOFS. The family of 70_reset_and_hazards.md: the launch state. -/

namespace Sys2Proof

open Sys2Proof.Machine

/-- The launch state's control state: CR0.PE and EFER.LMA with CS.L (70_reset_and_hazards.md R182). -/
theorem reset_mode : State.reset.mode = some .m64 := by decide

/-- CR4.OSXSAVE and the five XCR0 bits (60_exceptions.md R153). -/
theorem reset_stateEnabled : State.reset.stateEnabled = true := by decide

/-- The pc starts at 0, which meets the bound of either mode. -/
theorem stateOk_reset : StateOk State.reset where
  mem := reset_mem_wf
  pc _ := by decide

/-- Settles O51: the invariant, the mode and the enables as above; the two feature bits, CR0.TS and the
pending events are read off the reset state. -/
theorem resetIsALaunchState : Obligations.ResetIsALaunchState :=
  ⟨stateOk_reset, reset_mode, reset_stateEnabled, by decide, by decide, by decide, rfl⟩

end Sys2Proof
end
